-- ==== Sys2Proof/Word.lean ====
section
/-! DEFINITION. The bit-vector types of the CHIP-8 core: bytes, 16-bit words, 12-bit literals. The widths stand here once, as
numerals, so that arithmetic on a value sees its bound; `widths_as_named` (Laws/State.lean) holds them against the named widths of
`Config` (R7). -/

namespace Sys2Proof

/-- A byte: a memory cell, a general register (`REG_WIDTH`), a timer (`TIMER_WIDTH`), an `nn` literal (R7, R71). -/
abbrev Byte := BitVec 8

/-- A 16-bit quantity: an opcode (`OPCODE_WIDTH`), `pc` (`PC_WIDTH`), `I` (`I_WIDTH`), a stack entry
(`STACK_ENTRY_WIDTH`), a key bitmask, one bit a key (R7). -/
abbrev Word := BitVec 16

/-- A 12-bit literal `nnn`, or the address of a `host_write` (R71, R214). -/
abbrev Addr12 := BitVec 12

end Sys2Proof
end

