-- ==== Sys2Proof/Config.lean ====
section
/-! DEFINITION. The parameters of 00_scope.md R7: the named constants of this hardware, and its one free value.

The choices R7 lists beside the numbers take the value given there and are built into the rule of the instruction they
concern: SHIFT_VF_STICKY = false (R141), KEYWAIT_EDGE = changed (R164), PREVKEYS_UPDATE = every_step (R95),
KEY_INDEX_OOR = reads_zero (R118), I_ADD_OVERFLOW = wrap16 (R133), VF_WRITE_ORDER = flag_last (R131).
TickSchedule is the event list a State carries (`HostPort.pending`). -/

namespace Sys2Proof.Config

/-- `MEM_SIZE` (R7): 4096 addressable bytes. -/
abbrev memSize : Nat := 4096

/-- `PROGRAM_BASE` (R7): programs are loaded starting at 512. -/
abbrev programBase : Nat := 512

/-- `RESET_PC` (R7, decision D9): `pc` after reset. -/
abbrev resetPc : Nat := 512

/-- The largest address a fetch may start at (R91): both bytes of the opcode must lie in memory. -/
abbrev lastFetchAddress : Nat := 4094

/-- `FONT_BASE` (R7): the address of glyph 0. -/
abbrev fontBase : Nat := 0x50

/-- `GLYPH_STRIDE` (R7): bytes a glyph. -/
abbrev glyphStride : Nat := 5

/-- `NUM_REGS` (R7). -/
abbrev numRegs : Nat := 16

/-- `REG_WIDTH` (R7): bits of a general register. -/
abbrev regWidth : Nat := 8

/-- `TIMER_WIDTH` (R7): bits of a timer. -/
abbrev timerWidth : Nat := 8

/-- `PC_WIDTH` (R7): bits of `pc`. -/
abbrev pcWidth : Nat := 16

/-- `I_WIDTH` (R7): bits of `I`. -/
abbrev iWidth : Nat := 16

/-- `STACK_ENTRY_WIDTH` (R7, decision D19): bits of a stack entry. -/
abbrev stackEntryWidth : Nat := 16

/-- `OPCODE_WIDTH` (R7): bits of an opcode. -/
abbrev opcodeWidth : Nat := 16

/-- `STACK_CAPACITY` (R7): the call stack holds up to 16 return addresses. -/
abbrev stackCapacity : Nat := 16

/-- `FB_WIDTH` (R7): columns of the framebuffer. -/
abbrev fbWidth : Nat := 64

/-- `FB_HEIGHT` (R7): rows of the framebuffer. -/
abbrev fbHeight : Nat := 32

/-- Cells of the framebuffer, `FB_WIDTH` times `FB_HEIGHT`, always exactly 2048 (R30). -/
abbrev fbCells : Nat := 2048

/-- `KEY_COUNT` (R7): one bit of the key bitmask a key. -/
abbrev keyCount : Nat := 16

/-- The byte the `n`-th execution of RND after reset draws (counted from 0): a FREE VALUE, with no body. The spec leaves
the generator OPEN (R7, R33, R160; decision D10), so nothing may be proved about a value of it. Log entry 2. -/
opaque randomByte : Nat → Byte

end Sys2Proof.Config

namespace Sys2Proof

/-- The index of a general register, 0 to 15 (R21): a 4-bit field can name no other. -/
abbrev RegIdx := Fin Config.numRegs

end Sys2Proof
end

