-- ==== Sys2Proof/Syntax.lean ====
section
/-! DEFINITION. The instructions: one constructor per row of spec/opcode_table.json (30_encoding.md R76), and the names
under which the decoder turns a word away. -/

namespace Sys2Proof

/-- The 34 instructions of R76, in the table's order. A register operand is a `RegIdx`; `nn` is a byte, `nnn` a 12-bit
literal; `n`, the number of sprite rows, is a count, whose range 0 to 15 is `Instr.wellFormed`'s check. -/
inductive Instr where
  /-- 00E0 (R100) -/
  | cls
  /-- 00EE (R110) -/
  | ret
  /-- 1NNN (R111) -/
  | jp (nnn : Addr12)
  /-- 2NNN (R112) -/
  | call (nnn : Addr12)
  /-- 3XNN (R114) -/
  | seImm (x : RegIdx) (nn : Byte)
  /-- 4XNN (R115) -/
  | sneImm (x : RegIdx) (nn : Byte)
  /-- 5XY0 (R116) -/
  | seReg (x y : RegIdx)
  /-- 6XNN (R150) -/
  | ldImm (x : RegIdx) (nn : Byte)
  /-- 7XNN (R130) -/
  | addImm (x : RegIdx) (nn : Byte)
  /-- 8XY0 (R151) -/
  | ldReg (x y : RegIdx)
  /-- 8XY1 (R137) -/
  | orReg (x y : RegIdx)
  /-- 8XY2 (R138) -/
  | andReg (x y : RegIdx)
  /-- 8XY3 (R139) -/
  | xorReg (x y : RegIdx)
  /-- 8XY4 (R132) -/
  | addReg (x y : RegIdx)
  /-- 8XY5 (R135) -/
  | sub (x y : RegIdx)
  /-- 8XY6 (R140); `y` is decoded and ignored (R79), kept here so that no bit of the word is dropped -/
  | shr (x y : RegIdx)
  /-- 8XY7 (R136) -/
  | subn (x y : RegIdx)
  /-- 8XYE (R142); `y` is decoded and ignored (R79) -/
  | shl (x y : RegIdx)
  /-- 9XY0 (R117) -/
  | sneReg (x y : RegIdx)
  /-- ANNN (R152) -/
  | ldI (nnn : Addr12)
  /-- BNNN (R113) -/
  | jpV0 (nnn : Addr12)
  /-- CXNN (R160); `nn` is the mask -/
  | rnd (x : RegIdx) (nn : Byte)
  /-- DXYN (R102) -/
  | drw (x y : RegIdx) (n : Nat)
  /-- EX9E (R118) -/
  | skp (x : RegIdx)
  /-- EXA1 (R119) -/
  | sknp (x : RegIdx)
  /-- FX07 (R161) -/
  | ldVxDT (x : RegIdx)
  /-- FX0A (R164) -/
  | ldVxK (x : RegIdx)
  /-- FX15 (R162) -/
  | ldDTVx (x : RegIdx)
  /-- FX18 (R163) -/
  | ldSTVx (x : RegIdx)
  /-- FX1E (R133) -/
  | addI (x : RegIdx)
  /-- FX29 (R170) -/
  | ldF (x : RegIdx)
  /-- FX33 (R171) -/
  | ldB (x : RegIdx)
  /-- FX55 (R172) -/
  | dumpRegs (x : RegIdx)
  /-- FX65 (R173) -/
  | loadRegs (x : RegIdx)
  deriving DecidableEq, Repr

/-- Why the decoder reads no instruction. -/
inductive DecodeReject where
  /-- Fewer than two bytes were given (R70: every instruction is two bytes). -/
  | truncated
  /-- The word 0x0000, which the fetch cycle keeps from the decoder (R74, R78, R92). -/
  | haltSentinel
  /-- A nonzero word outside the opcode map (R77). -/
  | unrecognised (opcode : Word)
  deriving DecidableEq, Repr

end Sys2Proof
end

