-- ==== Sys2Proof/WellFormed.lean ====
section
/-! DEFINITION. Which instruction terms have an encoding. Register indices, `nn` and `nnn` carry their range in their
type (R71: "operand fields are masked from the opcode, so they cannot exceed valid ranges"); the row count of DRW is the
one operand whose range is a check. -/

namespace Sys2Proof

/-- R82: a literal "must fit [its] field (... `n` ≤ 0xF)"; R72, R73: `n` in DRW is 0 to 15. -/
def Instr.wellFormed : Instr → Bool
  | .drw _ _ n => decide (n < 16)
  | .cls | .ret | .jp _ | .call _ | .seImm _ _ | .sneImm _ _ | .seReg _ _ | .ldImm _ _ | .addImm _ _ | .ldReg _ _
  | .orReg _ _ | .andReg _ _ | .xorReg _ _ | .addReg _ _ | .sub _ _ | .shr _ _ | .subn _ _ | .shl _ _ | .sneReg _ _
  | .ldI _ | .jpV0 _ | .rnd _ _ | .skp _ | .sknp _ | .ldVxDT _ | .ldVxK _ | .ldDTVx _ | .ldSTVx _ | .addI _ | .ldF _
  | .ldB _ | .dumpRegs _ | .loadRegs _ => true

end Sys2Proof
end

