-- ==== Sys2Proof/Decode.lean ====
section
/-! DEFINITION. The decoder (30_encoding.md R70 to R79) and, after it, the encoder, both from the tables of R71, R72
and R76; the opcode map R76 itself as a list of rows. -/

namespace Sys2Proof

/-! ## Fields (R71) -/

/-- Bits 15:12, the first dispatch key. -/
def fieldFamily (w : Word) : BitVec 4 := w.extractLsb' 12 4

/-- Bits 11:8, the first register index. -/
def fieldX (w : Word) : RegIdx := (w.extractLsb' 8 4).toFin

/-- Bits 7:4, the second register index. -/
def fieldY (w : Word) : RegIdx := (w.extractLsb' 4 4).toFin

/-- Bits 3:0. -/
def fieldN (w : Word) : BitVec 4 := w.extractLsb' 0 4

/-- Bits 7:0. -/
def fieldNN (w : Word) : Byte := w.extractLsb' 0 8

/-- Bits 11:0. -/
def fieldNNN (w : Word) : Addr12 := w.extractLsb' 0 12

/-! ## Decoding (R74) -/

/-- Family 8 dispatches on the low nibble (R74). -/
def decodeFamily8 (w : Word) (x y : RegIdx) (n : BitVec 4) : Except DecodeReject Instr :=
  if n = 0x0 then .ok (.ldReg x y)
  else if n = 0x1 then .ok (.orReg x y)
  else if n = 0x2 then .ok (.andReg x y)
  else if n = 0x3 then .ok (.xorReg x y)
  else if n = 0x4 then .ok (.addReg x y)
  else if n = 0x5 then .ok (.sub x y)
  else if n = 0x6 then .ok (.shr x y)
  else if n = 0x7 then .ok (.subn x y)
  else if n = 0xE then .ok (.shl x y)
  else .error (.unrecognised w)

/-- Family E dispatches on the low byte (R74). -/
def decodeFamilyE (w : Word) (x : RegIdx) (nn : Byte) : Except DecodeReject Instr :=
  if nn = 0x9E then .ok (.skp x)
  else if nn = 0xA1 then .ok (.sknp x)
  else .error (.unrecognised w)

/-- Family F dispatches on the low byte (R74). -/
def decodeFamilyF (w : Word) (x : RegIdx) (nn : Byte) : Except DecodeReject Instr :=
  if nn = 0x07 then .ok (.ldVxDT x)
  else if nn = 0x0A then .ok (.ldVxK x)
  else if nn = 0x15 then .ok (.ldDTVx x)
  else if nn = 0x18 then .ok (.ldSTVx x)
  else if nn = 0x1E then .ok (.addI x)
  else if nn = 0x29 then .ok (.ldF x)
  else if nn = 0x33 then .ok (.ldB x)
  else if nn = 0x55 then .ok (.dumpRegs x)
  else if nn = 0x65 then .ok (.loadRegs x)
  else .error (.unrecognised w)

/-- Family 0 accepts exactly 00E0 and 00EE (R74); the zero word never reaches the decoder (R78). -/
def decodeFamily0 (w : Word) : Except DecodeReject Instr :=
  if w = 0x00E0 then .ok .cls
  else if w = 0x00EE then .ok .ret
  else if w = 0x0000 then .error .haltSentinel
  else .error (.unrecognised w)

/-- `decode(opcode: u16) -> Instruction` (R70, R74): dispatch on the family, then on `n` or `nn` where R74 says so. -/
def decodeWord (w : Word) : Except DecodeReject Instr :=
  let f := fieldFamily w
  if f = 0x0 then decodeFamily0 w
  else if f = 0x1 then .ok (.jp (fieldNNN w))
  else if f = 0x2 then .ok (.call (fieldNNN w))
  else if f = 0x3 then .ok (.seImm (fieldX w) (fieldNN w))
  else if f = 0x4 then .ok (.sneImm (fieldX w) (fieldNN w))
  else if f = 0x5 then if fieldN w = 0x0 then .ok (.seReg (fieldX w) (fieldY w)) else .error (.unrecognised w)
  else if f = 0x6 then .ok (.ldImm (fieldX w) (fieldNN w))
  else if f = 0x7 then .ok (.addImm (fieldX w) (fieldNN w))
  else if f = 0x8 then decodeFamily8 w (fieldX w) (fieldY w) (fieldN w)
  else if f = 0x9 then if fieldN w = 0x0 then .ok (.sneReg (fieldX w) (fieldY w)) else .error (.unrecognised w)
  else if f = 0xA then .ok (.ldI (fieldNNN w))
  else if f = 0xB then .ok (.jpV0 (fieldNNN w))
  else if f = 0xC then .ok (.rnd (fieldX w) (fieldNN w))
  else if f = 0xD then .ok (.drw (fieldX w) (fieldY w) (fieldN w).toNat)
  else if f = 0xE then decodeFamilyE w (fieldX w) (fieldNN w)
  else decodeFamilyF w (fieldX w) (fieldNN w)

/-- The word two bytes spell, the first byte high (R51: `mem[pc] ++ mem[pc+1]`). -/
def wordOfBytes (hi lo : Byte) : Word := hi ++ lo

/-- The decoder on bytes as memory holds them: the instruction and the bytes after it. -/
def decode : List Byte → Except DecodeReject (Instr × List Byte)
  | hi :: lo :: rest => (decodeWord (wordOfBytes hi lo)).map fun i => (i, rest)
  | _ => .error .truncated

/-! ## Encoding (R72, R76) -/

/-- A register index as the four bits of its field. -/
def regField (x : RegIdx) : BitVec 4 := BitVec.ofFin x

/-- Format NNN: family, `nnn`. -/
def formatNNN (family : BitVec 4) (nnn : Addr12) : Word := family ++ nnn

/-- Format XNN: family, `x`, `nn`. -/
def formatXNN (family : BitVec 4) (x : RegIdx) (nn : Byte) : Word := family ++ regField x ++ nn

/-- Formats XY and XYN: family, `x`, `y` and the low nibble, which XY fixes and XYN leaves to `n`. -/
def formatXYN (family : BitVec 4) (x y : RegIdx) (n : BitVec 4) : Word := family ++ regField x ++ regField y ++ n

/-- Format X: family, `x` and the fixed low byte. -/
def formatX (family : BitVec 4) (x : RegIdx) (low : Byte) : Word := formatXNN family x low

/-- The word of an instruction (R76). A row count that does not fit its field loses its high bits here, and is no
well-formed instruction. -/
def encode : Instr → Word
  | .cls => 0x00E0
  | .ret => 0x00EE
  | .jp nnn => formatNNN 0x1 nnn
  | .call nnn => formatNNN 0x2 nnn
  | .seImm x nn => formatXNN 0x3 x nn
  | .sneImm x nn => formatXNN 0x4 x nn
  | .seReg x y => formatXYN 0x5 x y 0x0
  | .ldImm x nn => formatXNN 0x6 x nn
  | .addImm x nn => formatXNN 0x7 x nn
  | .ldReg x y => formatXYN 0x8 x y 0x0
  | .orReg x y => formatXYN 0x8 x y 0x1
  | .andReg x y => formatXYN 0x8 x y 0x2
  | .xorReg x y => formatXYN 0x8 x y 0x3
  | .addReg x y => formatXYN 0x8 x y 0x4
  | .sub x y => formatXYN 0x8 x y 0x5
  | .shr x y => formatXYN 0x8 x y 0x6
  | .subn x y => formatXYN 0x8 x y 0x7
  | .shl x y => formatXYN 0x8 x y 0xE
  | .sneReg x y => formatXYN 0x9 x y 0x0
  | .ldI nnn => formatNNN 0xA nnn
  | .jpV0 nnn => formatNNN 0xB nnn
  | .rnd x nn => formatXNN 0xC x nn
  | .drw x y n => formatXYN 0xD x y (BitVec.ofNat 4 n)
  | .skp x => formatX 0xE x 0x9E
  | .sknp x => formatX 0xE x 0xA1
  | .ldVxDT x => formatX 0xF x 0x07
  | .ldVxK x => formatX 0xF x 0x0A
  | .ldDTVx x => formatX 0xF x 0x15
  | .ldSTVx x => formatX 0xF x 0x18
  | .addI x => formatX 0xF x 0x1E
  | .ldF x => formatX 0xF x 0x29
  | .ldB x => formatX 0xF x 0x33
  | .dumpRegs x => formatX 0xF x 0x55
  | .loadRegs x => formatX 0xF x 0x65

/-- The two bytes of an instruction as memory holds them, the first byte high (R51, R70). -/
def encodeBytes (i : Instr) : List Byte := [(encode i).extractLsb' 8 8, (encode i).extractLsb' 0 8]

/-! ## The opcode map as the spec prints it (R76) -/

/-- One row of R76: a word `w` selects the row when `w & mask = match`. -/
structure OpcodeRow where
  mnemonic : String
  matchBits : Word
  mask : Word
  deriving DecidableEq, Repr

/-- Rows 1 to 9 of R76. -/
def opcodeMapA : List OpcodeRow :=
  [ ⟨"CLS", 0x00E0, 0xFFFF⟩, ⟨"RET", 0x00EE, 0xFFFF⟩, ⟨"JP_nnn", 0x1000, 0xF000⟩, ⟨"CALL_nnn", 0x2000, 0xF000⟩,
    ⟨"SE_Vx_nn", 0x3000, 0xF000⟩, ⟨"SNE_Vx_nn", 0x4000, 0xF000⟩, ⟨"SE_Vx_Vy", 0x5000, 0xF00F⟩,
    ⟨"LD_Vx_nn", 0x6000, 0xF000⟩, ⟨"ADD_Vx_nn", 0x7000, 0xF000⟩ ]

/-- Rows 10 to 19 of R76. -/
def opcodeMapB : List OpcodeRow :=
  [ ⟨"LD_Vx_Vy", 0x8000, 0xF00F⟩, ⟨"OR_Vx_Vy", 0x8001, 0xF00F⟩, ⟨"AND_Vx_Vy", 0x8002, 0xF00F⟩,
    ⟨"XOR_Vx_Vy", 0x8003, 0xF00F⟩, ⟨"ADD_Vx_Vy", 0x8004, 0xF00F⟩, ⟨"SUB_Vx_Vy", 0x8005, 0xF00F⟩,
    ⟨"SHR_Vx", 0x8006, 0xF00F⟩, ⟨"SUBN_Vx_Vy", 0x8007, 0xF00F⟩, ⟨"SHL_Vx", 0x800E, 0xF00F⟩,
    ⟨"SNE_Vx_Vy", 0x9000, 0xF00F⟩ ]

/-- Rows 20 to 34 of R76. -/
def opcodeMapC : List OpcodeRow :=
  [ ⟨"LD_I_nnn", 0xA000, 0xF000⟩, ⟨"JP_V0_nnn", 0xB000, 0xF000⟩, ⟨"RND_Vx_nn", 0xC000, 0xF000⟩,
    ⟨"DRW_Vx_Vy_n", 0xD000, 0xF000⟩, ⟨"SKP_Vx", 0xE09E, 0xF0FF⟩, ⟨"SKNP_Vx", 0xE0A1, 0xF0FF⟩,
    ⟨"LD_Vx_DT", 0xF007, 0xF0FF⟩, ⟨"LD_Vx_K", 0xF00A, 0xF0FF⟩, ⟨"LD_DT_Vx", 0xF015, 0xF0FF⟩,
    ⟨"LD_ST_Vx", 0xF018, 0xF0FF⟩, ⟨"ADD_I_Vx", 0xF01E, 0xF0FF⟩, ⟨"LD_F_Vx", 0xF029, 0xF0FF⟩,
    ⟨"LD_B_Vx", 0xF033, 0xF0FF⟩, ⟨"LD__I__Vx", 0xF055, 0xF0FF⟩, ⟨"LD_Vx__I", 0xF065, 0xF0FF⟩ ]

/-- The opcode map R76, mnemonics spelled as spec/opcode_table.json spells them. The decoder does not read it: that the
two agree is a claim about the decoder. -/
def opcodeMap : List OpcodeRow := opcodeMapA ++ opcodeMapB ++ opcodeMapC

/-- The mnemonic of an instruction's row. -/
def Instr.mnemonic : Instr → String
  | .cls => "CLS"
  | .ret => "RET"
  | .jp _ => "JP_nnn"
  | .call _ => "CALL_nnn"
  | .seImm _ _ => "SE_Vx_nn"
  | .sneImm _ _ => "SNE_Vx_nn"
  | .seReg _ _ => "SE_Vx_Vy"
  | .ldImm _ _ => "LD_Vx_nn"
  | .addImm _ _ => "ADD_Vx_nn"
  | .ldReg _ _ => "LD_Vx_Vy"
  | .orReg _ _ => "OR_Vx_Vy"
  | .andReg _ _ => "AND_Vx_Vy"
  | .xorReg _ _ => "XOR_Vx_Vy"
  | .addReg _ _ => "ADD_Vx_Vy"
  | .sub _ _ => "SUB_Vx_Vy"
  | .shr _ _ => "SHR_Vx"
  | .subn _ _ => "SUBN_Vx_Vy"
  | .shl _ _ => "SHL_Vx"
  | .sneReg _ _ => "SNE_Vx_Vy"
  | .ldI _ => "LD_I_nnn"
  | .jpV0 _ => "JP_V0_nnn"
  | .rnd _ _ => "RND_Vx_nn"
  | .drw _ _ _ => "DRW_Vx_Vy_n"
  | .skp _ => "SKP_Vx"
  | .sknp _ => "SKNP_Vx"
  | .ldVxDT _ => "LD_Vx_DT"
  | .ldVxK _ => "LD_Vx_K"
  | .ldDTVx _ => "LD_DT_Vx"
  | .ldSTVx _ => "LD_ST_Vx"
  | .addI _ => "ADD_I_Vx"
  | .ldF _ => "LD_F_Vx"
  | .ldB _ => "LD_B_Vx"
  | .dumpRegs _ => "LD__I__Vx"
  | .loadRegs _ => "LD_Vx__I"

/-! ## The host's numbering of a table row's bits -/

/-- The word the opcode table's numbering names: bit 0 the least significant bit, bits at and above `nbits` zero. -/
def tableWord (nbits w : Nat) : Word := BitVec.ofNat Config.opcodeWidth (w % 2 ^ nbits)

/-- The instruction the decoder reads from that word, laid out as memory holds it: the high byte first (R51). -/
def decodeTableWord (nbits w : Nat) : Option Instr :=
  let op := tableWord nbits w
  match decode [op.extractLsb' 8 8, op.extractLsb' 0 8] with
  | .ok (i, _) => some i
  | .error _ => none

end Sys2Proof
end

