-- ==== Sys2Proof/Machine/State.lean ====
section
/-! DEFINITION. The state of the CHIP-8 core (10_state.md R20: twelve elements "and nothing else"), its reset value
(R37), and beside it the host, the one external agent (00_scope.md R5, R6), as plain data. -/

namespace Sys2Proof.Machine

/-- `mem`, the 4096 bytes (R31, R50), as the list of the bytes that are not 0x00: an address not listed reads 0x00, the
reset contents (R37). `Memory.wf` is its canonical form. -/
abbrev Memory := List Host.Cell

/-- The canonical form from address `low` on: addresses strictly rising, below 4096, no byte 0x00 listed. -/
def Memory.wfFrom (low : Nat) : Memory → Bool
  | [] => true
  | c :: m => decide (low ≤ c.1) && decide (c.1 < Config.memSize) && decide (c.2 ≠ 0) && Memory.wfFrom (c.1 + 1) m

/-- The canonical form of `mem`: equal memories are equal lists. -/
def Memory.wf (m : Memory) : Bool := Memory.wfFrom 0 m

/-- `V[0..15]` (R21). -/
abbrev Registers := Vector Byte Config.numRegs

/-- `stack[0..15]` (R27). -/
abbrev CallStack := Vector Word Config.stackCapacity

/-- `sp`, the number of valid stack entries, 0 to `STACK_CAPACITY` (R27). -/
abbrev Depth := Fin (Config.stackCapacity + 1)

/-- `fb`, cell `row * 64 + column` (R30). -/
abbrev Framebuffer := Vector Bool Config.fbCells

/-- The five latched fault kinds, codes 1 to 5 of `Condition.number` (R180, R190). -/
inductive FaultCode where
  /-- code 1: a nonzero word outside the opcode map (R184) -/
  | decodeError
  /-- code 2: CALL with `sp = 16` (R185) -/
  | stackOverflow
  /-- code 3: RET with `sp = 0` (R186) -/
  | stackUnderflow
  /-- code 4: raised by nothing (R187) -/
  | operandShapeMismatch
  /-- code 5: an access beyond address 4095 (R188) -/
  | executionFault
  deriving DecidableEq, Repr

/-- The rows of the fault-code table (R190): no fault, the five latched kinds, and `LoadError`, which `load_program`
returns and nothing latches. -/
inductive Condition where
  | none
  | latched (code : FaultCode)
  | loadError
  deriving DecidableEq, Repr

/-- The access kind an ExecutionFault records (R34, R188). -/
inductive AccessKind where
  | fetch
  | read
  | write
  deriving DecidableEq, Repr

/-- The fault record `(code, pc0, opcode, kind, addr)` (R34, R181). -/
structure FaultRecord where
  code   : FaultCode
  /-- the address the step fetched from -/
  pc0    : Word
  /-- the fetched word; absent only for a fetch fault -/
  opcode : Option Word
  /-- present only for an ExecutionFault -/
  kind   : Option AccessKind
  /-- the first out-of-range address; present only for an ExecutionFault -/
  addr   : Option Word
  deriving DecidableEq, Repr

/-- An event the host issues (R6). -/
inductive HostEvent where
  | reset
  | loadProgram (bytes : List Byte)
  | hostWrite (addr : Addr12) (byte : Byte)
  | step (keys : Word)
  | tick
  | getState
  deriving DecidableEq, Repr

/-- The host's side of the interface, the MODEL's own field (R35: neither the `keys` argument nor the schedule of events
is state of the core). Log entries 4, 5, 6. -/
structure HostPort where
  /-- the `keys` argument of the step event being run (R90) -/
  keys    : Word
  /-- the events the host has still to issue, the next one first (R6, R63) -/
  pending : List HostEvent
  deriving DecidableEq, Repr

/-- Everything the core remembers between two events (R20), and the host's port. -/
structure State where
  /-- 4096 bytes, instructions and data alike (R31) -/
  mem      : Memory
  /-- the program counter (R24, R25) -/
  pc       : Word
  /-- the index register (R26) -/
  I        : Word
  /-- the 16 return addresses (R27) -/
  stack    : CallStack
  /-- the depth counter, the number of valid entries, 0 to 16 (R27) -/
  sp       : Depth
  /-- the delay timer (R28) -/
  DT       : Byte
  /-- the sound timer (R29) -/
  ST       : Byte
  /-- the general registers; `V[15]` is VF (R21, R22) -/
  V        : Registers
  /-- the framebuffer, cell `row * 64 + column`, true is lit (R30) -/
  fb       : Framebuffer
  /-- the previous step's key bitmask (R32) -/
  prevKeys : Word
  /-- the state of the random source: how many bytes it has given since reset (R33; log entry 2) -/
  rng      : Nat
  /-- the fault latch (R34) -/
  fault    : Option FaultRecord
  /-- the host, no element of the core -/
  host     : HostPort
  deriving DecidableEq, Repr

/-- The machine right after `reset` (R37, R210). `rng` is the model's RNG_SEED (log entry 3); the host's port is empty
(log entry 6). -/
def State.reset : State where
  mem := []
  pc := BitVec.ofNat Config.pcWidth Config.resetPc
  I := 0x0000
  stack := Vector.replicate Config.stackCapacity 0x0000
  sp := 0
  DT := 0x00
  ST := 0x00
  V := Vector.replicate Config.numRegs 0x00
  fb := Vector.replicate Config.fbCells false
  prevKeys := 0x0000
  rng := 0
  fault := none
  host := { keys := 0x0000, pending := [] }

/-- What `get_state` returns (R201): the `MachineState` and, in this spec, `fault`; neither `prev_keys` nor `rng`
(R32: "`get_state` need not expose it"). -/
structure Snapshot where
  mem   : Memory
  pc    : Word
  I     : Word
  stack : CallStack
  sp    : Depth
  DT    : Byte
  ST    : Byte
  V     : Registers
  fb    : Framebuffer
  fault : Option FaultRecord
  deriving DecidableEq, Repr

/-- What an event reports to the host: a step's outcome (R90), `load_program`'s answer (R189, R213), `get_state`'s value
(R201), or nothing. -/
inductive Reply where
  | executed
  | halted
  | fault (record : FaultRecord)
  | loaded
  | loadError
  | snapshot (value : Snapshot)
  | none
  deriving DecidableEq, Repr

/-- Why a run of the model could stop for good. The core's own fatal conditions are NOT among these: raising one is a
next state whose `fault` holds the record (R181, R194; log entry 7). -/
inductive Fault where
  /-- "decoder produced an instruction/operand pairing the executor has no handler for" (R187): raised by nothing, since
  every instruction of `Instr` has a meaning. Safe: no run meets it. -/
  | operandShapeMismatch
  deriving DecidableEq, Repr

/-- Why the model could have no meaning for an instruction. -/
inductive Refusal where
  /-- Raised by an arm of `exec` whose instruction has no meaning yet; no arm does so now. Safe: the run stops. -/
  | notModelled (mnemonic : String)
  deriving DecidableEq, Repr

end Sys2Proof.Machine
end

