-- ==== Sys2Proof/Machine/Ops.lean ====
section
/-! DEFINITION. The named operations over memory, registers, call stack and framebuffer; raising a fault; the bounds
check. Every meaning is written with these. -/

namespace Sys2Proof.Machine

/-- What a meaning answers. -/
abbrev Result := Host.Outcome State Fault Refusal

/-! ## Memory (20_memory.md) -/

/-- The byte at an address; an address not listed reads 0x00 (R37, R55). -/
def Memory.read : Memory → Nat → Byte
  | [], _ => 0x00
  | c :: m, a => if c.1 = a then c.2 else Memory.read m a

/-- The memory with nothing listed at `a`. -/
def Memory.erase (m : Memory) (a : Nat) : Memory := m.filter fun c => c.1 ≠ a

/-- The memory with `(a, b)` listed in its place. -/
def Memory.insert : Memory → Nat → Byte → Memory
  | [], a, b => [(a, b)]
  | c :: m, a, b => if a < c.1 then (a, b) :: c :: m else c :: Memory.insert m a b

/-- `MemWrite(a, 1, b)` for an `a` already checked (R10, R53, R55). -/
def Memory.write (m : Memory) (a : Nat) (b : Byte) : Memory :=
  if b = 0x00 then m.erase a else (m.erase a).insert a b

/-- Bytes written at `a`, `a + 1`, ..., in that order. -/
def Memory.writeBytes (m : Memory) (a : Nat) : List Byte → Memory
  | [] => m
  | b :: bs => Memory.writeBytes (m.write a b) (a + 1) bs

/-- `MemRead(a, 2)`, first byte high: the opcode at `a` (R51, R91). -/
def Memory.readOpcode (m : Memory) (a : Nat) : Word := wordOfBytes (m.read a) (m.read (a + 1))

/-- An opcode laid out as fetch reads it, first byte high (R51). -/
def Memory.writeOpcode (m : Memory) (a : Nat) (op : Word) : Memory :=
  m.writeBytes a [op.extractLsb' 8 8, op.extractLsb' 0 8]

/-! ## Registers (10_state.md R21 to R33): one accessor and one update each -/

/-- `V[r]`. No register is hardwired (R21). -/
def State.reg (s : State) (r : RegIdx) : Byte := s.V[r.val]

/-- `V[r] <- b`. -/
def State.setReg (s : State) (r : RegIdx) (b : Byte) : State := { s with V := s.V.set r.val b }

/-- `pc <- target`. -/
def State.setPc (s : State) (target : Word) : State := { s with pc := target }

/-- The advance of the fetch cycle, `pc <- pc + 2` (R93). A meaning is given the state as the step began, `pc = pc0`, and
makes this advance itself (log entry 10). -/
def State.advance (s : State) : State := s.setPc (s.pc + 2)

/-- `I <- w`. -/
def State.setI (s : State) (w : Word) : State := { s with I := w }

/-- `mem` replaced. -/
def State.setMem (s : State) (m : Memory) : State := { s with mem := m }

/-- All of `V` replaced (LD Vx,[I]). -/
def State.setRegs (s : State) (v : Registers) : State := { s with V := v }

/-- `fb` replaced. -/
def State.setFb (s : State) (fb : Framebuffer) : State := { s with fb := fb }

/-- `DT <- b`. -/
def State.setDT (s : State) (b : Byte) : State := { s with DT := b }

/-- `ST <- b`. -/
def State.setST (s : State) (b : Byte) : State := { s with ST := b }

/-- `rng <- n`. -/
def State.setRng (s : State) (n : Nat) : State := { s with rng := n }

/-- `prev_keys <- keys` (R95). -/
def State.setPrevKeys (s : State) (keys : Word) : State := { s with prevKeys := keys }

/-- The call stack and its depth together. -/
def State.setCalls (s : State) (stack : CallStack) (sp : Depth) : State := { s with stack := stack, sp := sp }

/-- The host's port. -/
def State.setHost (s : State) (h : HostPort) : State := { s with host := h }

/-- `fault <- f`. -/
def State.setFault (s : State) (f : Option FaultRecord) : State := { s with fault := f }

/-! ## The call stack (R27) -/

/-- `stack[sp] <- w; sp <- sp + 1`, or none when the stack is full (R112). -/
def State.push (s : State) (w : Word) : Option State :=
  if h : s.sp.val < Config.stackCapacity then
    some (s.setCalls (s.stack.set s.sp.val w h) ⟨s.sp.val + 1, Nat.succ_lt_succ h⟩)
  else none

/-- `sp <- sp - 1` and the entry there, which is not cleared, or none when the stack is empty (R27, R110). -/
def State.pop (s : State) : Option (Word × State) :=
  if h : s.sp.val = 0 then none
  else
    have hk : s.sp.val - 1 < Config.stackCapacity := by have := s.sp.isLt; omega
    some (s.stack[s.sp.val - 1], s.setCalls s.stack ⟨s.sp.val - 1, Nat.lt_succ_of_lt hk⟩)

/-! ## Taking a fault, and the one way out of it (60_exceptions.md) -/

/-- `raise F(info)` (R181): the record is latched and nothing else changes. `s` is the state as the step began, so
"every state element [has] the value it had when the step began", `pc = pc0` included (R183), and there is no vector, no
handler, no mode and no stack to use (R194). The next state is Faulted (R182). -/
def raise (code : FaultCode) (opcode : Option Word) (access : Option (AccessKind × Word)) (s : State) : Result :=
  .next (s.setFault (some ⟨code, s.pc, opcode, access.map Prod.fst, access.map Prod.snd⟩))

/-- The numbers of the fault-code table (R190), 0 to 6. -/
def Condition.number : Condition → Nat
  | .none => 0
  | .latched .decodeError => 1
  | .latched .stackOverflow => 2
  | .latched .stackUnderflow => 3
  | .latched .operandShapeMismatch => 4
  | .latched .executionFault => 5
  | .loadError => 6

/-- The row of the table that the fault latch stands for (R34, R190). -/
def State.condition (s : State) : Condition :=
  match s.fault with
  | some r => .latched r.code
  | none => .none

/-- The row of the table that an event's report stands for (R190): a step or a load that reports no error is row 0. -/
def Reply.condition : Reply → Condition
  | .fault r => .latched r.code
  | .loadError => .loadError
  | .executed | .halted | .loaded | .snapshot _ | .none => .none

/-- There is no return from a fault (R195): "The only way on is `reset`", which sets every element to its reset value
(R210) and leaves the host's events still to come as they are (log entry 11). -/
def resetEvent (s : State) : State := State.reset.setHost s.host

/-! ## Bounds (R53) -/

/-- Does an access of `n` bytes at `I` leave 0 to 4095? An access of no bytes never does. -/
def State.accessOutside (s : State) (n : Nat) : Bool := decide (1 ≤ n) && decide (s.I.toNat + n > Config.memSize)

/-- `max(I, 4096)`, the first out-of-range address (R188). -/
def State.firstOutside (s : State) : Word := if s.I.toNat ≤ Config.memSize then BitVec.ofNat Config.iWidth Config.memSize else s.I

/-- `raise ExecutionFault(kind, addr = max(I, 4096))` (R102, R171 to R173, R188). -/
def raiseAccess (kind : AccessKind) (opcode : Word) (s : State) : Result :=
  raise .executionFault (some opcode) (some (kind, s.firstOutside)) s

/-! ## Register ranges (R172, R173) -/

/-- The first `n` registers, in order: the bytes LD [I],Vx stores. -/
def State.firstRegs (s : State) (n : Nat) : List Byte := s.V.toList.take n

/-- `for k in 0 .. n-1: V[k] <- MemRead(base + k, 1)`. -/
def loadRange (m : Memory) (base : Nat) (v : Registers) : Nat → Registers
  | 0 => v
  | n + 1 => (loadRange m base v n).setIfInBounds n (m.read (base + n))

/-! ## The framebuffer (41_display.md) -/

/-- A framebuffer and whether a lit cell has been cleared so far. -/
abbrev Canvas := Framebuffer × Bool

/-- One pixel of a sprite (R102): row `r`, column `c`, `bit` the source bit. A pixel outside the 64×32 grid is clipped, a
zero bit leaves its cell alone, a one bit toggles it, and clearing a lit cell is a collision. -/
def drawPixel (ox oy r c : Nat) (bit : Bool) (p : Canvas) : Canvas :=
  if h : oy + r < Config.fbHeight ∧ ox + c < Config.fbWidth ∧ bit = true then
    have hk : (oy + r) * Config.fbWidth + (ox + c) < Config.fbCells := by
      obtain ⟨h1, h2, _⟩ := h
      simp only [Config.fbHeight, Config.fbWidth, Config.fbCells] at *
      omega
    let k := (oy + r) * Config.fbWidth + (ox + c)
    (p.1.set k (!p.1[k]) hk, p.2 || p.1[k])
  else p

/-- Columns `0 .. cols-1` of one sprite row; bit 7 of the byte is column 0 (R101). -/
def drawRow (ox oy r : Nat) (b : Byte) (p : Canvas) : Nat → Canvas
  | 0 => p
  | cols + 1 => drawPixel ox oy r cols (b.getLsbD (7 - cols)) (drawRow ox oy r b p cols)

/-- Rows `0 .. n-1` of the sprite at `base`, each eight pixels wide (R101, R102). -/
def drawRows (m : Memory) (base ox oy : Nat) (p : Canvas) : Nat → Canvas
  | 0 => p
  | n + 1 => drawRow ox oy n (m.read (base + n)) (drawRows m base ox oy p n) 8

/-! ## Placing an instruction for the very next step -/

/-- Where the next fetch can be made: `pc`, or 512 where no fetch can start at `pc` (R91). -/
def State.fetchAddress (s : State) : Word :=
  if s.pc.toNat ≤ Config.lastFetchAddress then s.pc else BitVec.ofNat Config.pcWidth Config.programBase

/-- The state whose very next step fetches `op` at `fetchAddress`: the opcode stored there, no host event before it, no
fault latched (log entry 12). -/
def State.placeOpcode (s : State) (op : Word) : State :=
  ((((s.setMem (s.mem.writeOpcode s.fetchAddress.toNat op)).setPc s.fetchAddress).setFault none).setHost
    { s.host with pending := [] })

end Sys2Proof.Machine
end

