-- ==== Sys2Proof/Machine/Operands.lean ====
section
/-! DEFINITION. The operand forms (30_encoding.md R73; 46_index_memory.md R170, R171, R174; 42_control_flow.md R118;
45_random_timers_keys.md R164) that are more than a register or a literal as it stands. -/

namespace Sys2Proof.Machine

/-- `zext_16(V[r])`. -/
def State.regWord (s : State) (r : RegIdx) : Word := (s.reg r).setWidth Config.iWidth

/-- `zext_16(nnn)`: a 12-bit address as a 16-bit one (R73). -/
def wordOfAddr (nnn : Addr12) : Word := nnn.setWidth Config.pcWidth

/-- The key operand of SKP and SKNP (R118): `(k ≤ 15) and (keys[k] = 1)`; an index of 16 or more names no key. -/
def keyHeld (keys : Word) (k : Byte) : Bool := decide (k.toNat < Config.keyCount) && keys.getLsbD k.toNat

/-- `changed = keys ^ prev_keys` (R164). -/
def State.changedKeys (s : State) : Word := s.host.keys ^^^ s.prevKeys

/-- `lowest_set_bit(v)`: for nonzero `v` the smallest `i` with `v[i] = 1` (R10). -/
def lowestSetBit (v : Word) : Nat := ((List.range Config.keyCount).find? fun i => v.getLsbD i).getD 0

/-- `0x50 + 5 * zext_16(V[x])` (R170). -/
def glyphAddress (d : Byte) : Word := BitVec.ofNat Config.iWidth (Config.fontBase + Config.glyphStride * d.toNat)

/-- The decimal digits of a byte, hundreds, tens, ones (R171). -/
def bcdDigits (v : Byte) : List Byte :=
  [v.toNat / 100, v.toNat / 10 % 10, v.toNat % 10].map (BitVec.ofNat Config.regWidth)

/-- The column of a sprite's origin, `V[x] mod 64` (R101). -/
def originColumn (v : Byte) : Nat := v.toNat % Config.fbWidth

/-- The row of a sprite's origin, `V[y] mod 32` (R101). -/
def originRow (v : Byte) : Nat := v.toNat % Config.fbHeight

end Sys2Proof.Machine
end

