-- ==== Sys2Proof/Machine/Flags.lean ====
section
/-! DEFINITION. The flag VF (10_state.md R22, R23) and every flag computation (43_arithmetic_logic.md). -/

namespace Sys2Proof.Machine

/-- VF is `V[15]` (R22). -/
def flagReg : RegIdx := 15

/-- A flag as VF holds it: 0 or 1. -/
def flagByte (f : Bool) : Byte := if f then 0x01 else 0x00

/-- `VF <- f`. -/
def State.setFlag (s : State) (f : Bool) : State := s.setReg flagReg (flagByte f)

/-- "An instruction that writes both a result register and VF writes the result first and VF last" (R131). -/
def State.setResultFlag (s : State) (x : RegIdx) (result : Byte) (f : Bool) : State := (s.setReg x result).setFlag f

/-- The exact sum of two bytes as 9 bits (R132). -/
def sum9 (a b : Byte) : BitVec (Config.regWidth + 1) := a.setWidth (Config.regWidth + 1) + b.setWidth (Config.regWidth + 1)

/-- The low 8 bits of the sum. -/
def sumByte (a b : Byte) : Byte := (sum9 a b).setWidth Config.regWidth

/-- "The carry of ADD Vx,Vy is bit 8 of the 9-bit sum" (R143). -/
def carryOut (a b : Byte) : Bool := (sum9 a b).getLsbD Config.regWidth

/-- `(a - b) mod 256` (R135). -/
def differenceByte (a b : Byte) : Byte := BitVec.ofInt Config.regWidth ((a.toNat : Int) - b.toNat)

/-- "1 exactly when minuend ≥ subtrahend, equality included" (R143). -/
def noBorrow (a b : Byte) : Bool := decide (b.toNat ≤ a.toNat)

/-- The bit SHR shifts out: bit 0 (R140). -/
def shiftedOutRight (a : Byte) : Bool := a.getLsbD 0

/-- The bit SHL shifts out: bit 7 (R142). -/
def shiftedOutLeft (a : Byte) : Bool := a.getLsbD (Config.regWidth - 1)

end Sys2Proof.Machine
end

