-- ==== Sys2Proof/Machine/Arith.lean ====
section
/-! DEFINITION. Arithmetic, logic and shifts (43_arithmetic_logic.md). Every source operand is read from the state as the
instruction begins; a flag is written last (R131). None of these can fault. -/

namespace Sys2Proof.Machine

/-- ADD Vx,nn (R130): no flag. -/
def execAddImm (x : RegIdx) (nn : Byte) (s : State) : Result := .next (s.advance.setReg x (s.reg x + nn))

/-- ADD Vx,Vy (R132). -/
def execAddReg (x y : RegIdx) (s : State) : Result :=
  .next (s.advance.setResultFlag x (sumByte (s.reg x) (s.reg y)) (carryOut (s.reg x) (s.reg y)))

/-- ADD I,Vx (R133): modulo 65536 (D12), no flag. -/
def execAddI (x : RegIdx) (s : State) : Result := .next (s.advance.setI (s.I + s.regWord x))

/-- SUB Vx,Vy (R135). -/
def execSub (x y : RegIdx) (s : State) : Result :=
  .next (s.advance.setResultFlag x (differenceByte (s.reg x) (s.reg y)) (noBorrow (s.reg x) (s.reg y)))

/-- SUBN Vx,Vy (R136): the operands reversed. -/
def execSubn (x y : RegIdx) (s : State) : Result :=
  .next (s.advance.setResultFlag x (differenceByte (s.reg y) (s.reg x)) (noBorrow (s.reg y) (s.reg x)))

/-- OR Vx,Vy (R137): VF is not written. -/
def execOrReg (x y : RegIdx) (s : State) : Result := .next (s.advance.setReg x (s.reg x ||| s.reg y))

/-- AND Vx,Vy (R138). -/
def execAndReg (x y : RegIdx) (s : State) : Result := .next (s.advance.setReg x (s.reg x &&& s.reg y))

/-- XOR Vx,Vy (R139). -/
def execXorReg (x y : RegIdx) (s : State) : Result := .next (s.advance.setReg x (s.reg x ^^^ s.reg y))

/-- SHR Vx (R140): the `y` field is ignored (R79, R141). -/
def execShr (x _y : RegIdx) (s : State) : Result :=
  .next (s.advance.setResultFlag x (s.reg x >>> 1) (shiftedOutRight (s.reg x)))

/-- SHL Vx (R142): the `y` field is ignored (R79, R141). -/
def execShl (x _y : RegIdx) (s : State) : Result :=
  .next (s.advance.setResultFlag x (s.reg x <<< 1) (shiftedOutLeft (s.reg x)))

end Sys2Proof.Machine
end

