-- ==== Sys2Proof/Machine/Control.lean ====
section
/-! DEFINITION. Control transfer (42_control_flow.md): RET, JP, CALL, JP V0, the six skips. -/

namespace Sys2Proof.Machine

/-- RET (R110). -/
def execRet (s : State) : Result :=
  match s.pop with
  | none => raise .stackUnderflow (some (encode .ret)) none s
  | some (target, t) => .next (t.setPc target)

/-- JP nnn (R111). -/
def execJp (nnn : Addr12) (s : State) : Result := .next (s.setPc (wordOfAddr nnn))

/-- CALL nnn (R112): what is pushed is the advanced `pc`, `pc0 + 2` (D31). -/
def execCall (nnn : Addr12) (s : State) : Result :=
  match s.push s.advance.pc with
  | none => raise .stackOverflow (some (encode (.call nnn))) none s
  | some t => .next (t.setPc (wordOfAddr nnn))

/-- JP V0,nnn (R113): the 16-bit sum, not masked (D30). -/
def execJpV0 (nnn : Addr12) (s : State) : Result := .next (s.setPc (wordOfAddr nnn + s.regWord 0))

/-- The shared effect of the six skips (R120): `pc = pc0 + 4` when the condition holds, else `pc0 + 2`. -/
def skipIf (taken : Bool) (s : State) : Result := .next (if taken then s.advance.advance else s.advance)

/-- SE Vx,nn (R114). -/
def execSeImm (x : RegIdx) (nn : Byte) (s : State) : Result := skipIf (s.reg x == nn) s

/-- SNE Vx,nn (R115). -/
def execSneImm (x : RegIdx) (nn : Byte) (s : State) : Result := skipIf (s.reg x != nn) s

/-- SE Vx,Vy (R116). -/
def execSeReg (x y : RegIdx) (s : State) : Result := skipIf (s.reg x == s.reg y) s

/-- SNE Vx,Vy (R117). -/
def execSneReg (x y : RegIdx) (s : State) : Result := skipIf (s.reg x != s.reg y) s

/-- SKP Vx (R118): the live `keys` of this step, not `prev_keys`. -/
def execSkp (x : RegIdx) (s : State) : Result := skipIf (keyHeld s.host.keys (s.reg x)) s

/-- SKNP Vx (R119). -/
def execSknp (x : RegIdx) (s : State) : Result := skipIf (!keyHeld s.host.keys (s.reg x)) s

end Sys2Proof.Machine
end

