-- ==== Sys2Proof/Machine/Display.lean ====
section
/-! DEFINITION. The display instructions (41_display.md): CLS, DRW. Every meaning is given the state as the step began,
`pc = pc0`, and makes the fetch cycle's advance with `advance` (R93; log entry 10). -/

namespace Sys2Proof.Machine

/-- CLS (R100): every framebuffer cell dark. -/
def execCls (s : State) : Result := .next (s.advance.setFb (Vector.replicate Config.fbCells false))

/-- DRW Vx,Vy,n (R101, R102): the bounds check over all `n` bytes first (D21), the origin from the registers as they were
(D5), then the sprite XORed in and VF set to the collision. -/
def execDrw (x y : RegIdx) (n : Nat) (s : State) : Result :=
  if s.accessOutside n then raiseAccess .read (encode (.drw x y n)) s
  else
    let drawn := drawRows s.mem s.I.toNat (originColumn (s.reg x)) (originRow (s.reg y)) (s.fb, false) n
    .next ((s.advance.setFb drawn.1).setFlag drawn.2)

end Sys2Proof.Machine
end

