-- ==== Sys2Proof/Machine/IndexMemory.lean ====
section
/-! DEFINITION. Index-register and memory instructions (46_index_memory.md). The bounds check comes before any change
(R53); no instruction here changes `I` except LD F,Vx (R174). -/

namespace Sys2Proof.Machine

/-- LD F,Vx (R170). -/
def execLdF (x : RegIdx) (s : State) : Result := .next (s.advance.setI (glyphAddress (s.reg x)))

/-- LD B,Vx (R171): hundreds at `I`, tens at `I + 1`, ones at `I + 2`. -/
def execLdB (x : RegIdx) (s : State) : Result :=
  if s.accessOutside 3 then raiseAccess .write (encode (.ldB x)) s
  else .next (s.advance.setMem (s.mem.writeBytes s.I.toNat (bcdDigits (s.reg x))))

/-- LD [I],Vx (R172): `V[0]` to `V[x]`; the count is the field `x`. -/
def execDumpRegs (x : RegIdx) (s : State) : Result :=
  if s.accessOutside (x.val + 1) then raiseAccess .write (encode (.dumpRegs x)) s
  else .next (s.advance.setMem (s.mem.writeBytes s.I.toNat (s.firstRegs (x.val + 1))))

/-- LD Vx,[I] (R173). -/
def execLoadRegs (x : RegIdx) (s : State) : Result :=
  if s.accessOutside (x.val + 1) then raiseAccess .read (encode (.loadRegs x)) s
  else .next (s.advance.setRegs (loadRange s.mem s.I.toNat s.V (x.val + 1)))

end Sys2Proof.Machine
end

