-- ==== Sys2Proof/Machine/LoadMove.lean ====
section
/-! DEFINITION. Set and move (44_load_move.md). -/

namespace Sys2Proof.Machine

/-- LD Vx,nn (R150). -/
def execLdImm (x : RegIdx) (nn : Byte) (s : State) : Result := .next (s.advance.setReg x nn)

/-- LD Vx,Vy (R151). -/
def execLdReg (x y : RegIdx) (s : State) : Result := .next (s.advance.setReg x (s.reg y))

/-- LD I,nnn (R152). -/
def execLdI (nnn : Addr12) (s : State) : Result := .next (s.advance.setI (wordOfAddr nnn))

end Sys2Proof.Machine
end

