-- ==== Sys2Proof/Machine/RandomTimersKeys.lean ====
section
/-! DEFINITION. Random, timers and key wait (45_random_timers_keys.md). -/

namespace Sys2Proof.Machine

/-- `RngNext(rng)` (R33, R160): the byte is a free value, the new state counts one more draw (log entry 2). -/
def rngNext (rng : Nat) : Byte × Nat := (Config.randomByte rng, rng + 1)

/-- RND Vx,nn (R160): `rng` advances whatever the mask is. -/
def execRnd (x : RegIdx) (nn : Byte) (s : State) : Result :=
  let draw := rngNext s.rng
  .next ((s.advance.setRng draw.2).setReg x (draw.1 &&& nn))

/-- LD Vx,DT (R161). -/
def execLdVxDT (x : RegIdx) (s : State) : Result := .next (s.advance.setReg x s.DT)

/-- LD DT,Vx (R162). -/
def execLdDTVx (x : RegIdx) (s : State) : Result := .next (s.advance.setDT (s.reg x))

/-- LD ST,Vx (R163). -/
def execLdSTVx (x : RegIdx) (s : State) : Result := .next (s.advance.setST (s.reg x))

/-- LD Vx,K (R164): with no key changed `pc` is rewound by 2, else the lowest changed key's index is written. -/
def execLdVxK (x : RegIdx) (s : State) : Result :=
  if s.changedKeys = 0x0000 then .next (s.advance.setPc (s.advance.pc - 2))
  else .next (s.advance.setReg x (BitVec.ofNat Config.regWidth (lowestSetBit s.changedKeys)))

end Sys2Proof.Machine
end

