-- ==== Sys2Proof/Machine/Cycle.lean ====
section
/-! DEFINITION. The step cycle (40_step_cycle.md) and the host's events (60_exceptions.md, 70_reset_and_hazards.md). -/

namespace Sys2Proof.Machine

/-! ## The step event -/

/-- `op <- MemRead(pc, 2)`, or none where a byte of it would lie outside memory (R91). -/
def fetch (s : State) : Option Word :=
  if s.pc.toNat ≤ Config.lastFetchAddress then some (s.mem.readOpcode s.pc.toNat) else none

/-- `prev_keys <- keys` at the end of a step that did not fault (R95). -/
def latchKeys (s : State) : State :=
  match s.fault with
  | none => s.setPrevKeys s.host.keys
  | some _ => s

/-- `latchKeys` on what a meaning answers. -/
def latchResult : Result → Result
  | .next t => .next (latchKeys t)
  | .fault f => .fault f
  | .refused r => .refused r

/-- `step(keys)` with `keys` the host port's (R97): the checks in the order of R191. -/
def stepCore (s : State) : Result :=
  match s.fault with
  | some _ => .next s
  | none =>
    match fetch s with
    | none => raise .executionFault none (some (.fetch, s.pc)) s
    | some op =>
      if op = 0x0000 then .next (latchKeys s)
      else
        match decodeWord op with
        | .error _ => raise .decodeError (some op) none s
        | .ok i => latchResult (exec i s)

/-! ## The other events (R6) -/

/-- `if t ≠ 0: t <- t - 1`: a timer at 0 stays at 0 (R196). -/
def countDown (t : Byte) : Byte := if t = 0x00 then 0x00 else t - 1

/-- `tick` (R196); nothing while Faulted (R182). -/
def tick (s : State) : State :=
  match s.fault with
  | some _ => s
  | none => (s.setDT (countDown s.DT)).setST (countDown s.ST)

/-- Does a program of these bytes fit from 512 on (R213)? -/
def programFits (bytes : List Byte) : Bool := decide (Config.programBase + bytes.length ≤ Config.memSize)

/-- `load_program(bytes)` (R213): nothing while Faulted (R182), nothing when the program is too long (R189). -/
def loadProgram (bytes : List Byte) (s : State) : State :=
  match s.fault with
  | some _ => s
  | none =>
    if programFits bytes then
      (s.setMem (s.mem.writeBytes Config.programBase bytes)).setPc (BitVec.ofNat Config.pcWidth Config.programBase)
    else s

/-- `host_write(addr, byte)` (R214); nothing while Faulted (R182). -/
def hostWrite (addr : Addr12) (byte : Byte) (s : State) : State :=
  match s.fault with
  | some _ => s
  | none => s.setMem (s.mem.write addr.toNat byte)

/-- `get_state` (R201): the snapshot it returns; it changes nothing. -/
def getState (s : State) : Snapshot where
  mem := s.mem
  pc := s.pc
  I := s.I
  stack := s.stack
  sp := s.sp
  DT := s.DT
  ST := s.ST
  V := s.V
  fb := s.fb
  fault := s.fault

/-! ## Which event comes next (R63; log entries 4, 5) -/

/-- The event the host issues next: the first pending one; with none pending, a step with the keys held as they are. -/
def nextEvent (s : State) : HostEvent :=
  match s.host.pending with
  | [] => .step s.host.keys
  | e :: _ => e

/-- The bitmask the port shows while an event runs: a step's own `keys`, else what it was. -/
def keysDuring (e : HostEvent) (keys : Word) : Word :=
  match e with
  | .step k => k
  | .reset | .loadProgram _ | .hostWrite _ _ | .tick | .getState => keys

/-- The state at the start of the next event: that event taken off the list, its keys (if a step's) on the port. -/
def takeEvent (s : State) : State := s.setHost ⟨keysDuring (nextEvent s) s.host.keys, s.host.pending.tail⟩

/-- An event's effect on the core (R6). -/
def runEvent (e : HostEvent) (s : State) : Result :=
  match e with
  | .step _ => stepCore s
  | .tick => .next (tick s)
  | .loadProgram bytes => .next (loadProgram bytes s)
  | .hostWrite addr byte => .next (hostWrite addr byte s)
  | .getState => .next s
  | .reset => .next (resetEvent s)

/-! ## What an event reports -/

/-- The outcome of a step (R90): `Fault(record)`, `Halted` when the fetched word was 0x0000, else `Executed`. -/
def stepReport (s : State) : Reply :=
  match stepCore s with
  | .next t =>
    match t.fault with
    | some r => .fault r
    | none => if fetch s = some 0x0000 then .halted else .executed
  | .fault _ | .refused _ => .none

/-- The answer of `load_program` (R213): the latched fault, `LoadError`, or Ok. -/
def loadReport (bytes : List Byte) (s : State) : Reply :=
  match s.fault with
  | some r => .fault r
  | none => if programFits bytes then .loaded else .loadError

/-- What an event reports to the host. -/
def eventReply (e : HostEvent) (s : State) : Reply :=
  match e with
  | .step _ => stepReport s
  | .loadProgram bytes => loadReport bytes s
  | .getState => .snapshot (getState s)
  | .tick | .hostWrite _ _ | .reset => .none

/-- What the host gets from the event that `step s` runs. -/
def reply (s : State) : Reply := eventReply (nextEvent s) (takeEvent s)

end Sys2Proof.Machine
end

