-- ==== Sys2Proof/Machine/Step.lean ====
section
/-! DEFINITION. One step of the model: the next event of the host, run to completion (R5: each event is atomic). -/

namespace Sys2Proof.Machine

/-- The model's step. With no event pending it is `step(keys)` of 40_step_cycle.md with the keys held as they are. -/
def step (s : State) : Host.Outcome State Fault Refusal := runEvent (nextEvent s) (takeEvent s)

/-- The state whose very next step fetches and runs the instruction the opcode table's bits `w` name (log entry 12). -/
def State.withFetchWord (s : State) (nbits w : Nat) : State := s.placeOpcode (tableWord nbits w)

end Sys2Proof.Machine
end

