-- ==== Sys2Proof/Safety.lean ====
section
/-! DEFINITION. The terms in which claims speak: the elements of the state and what it means that one is unchanged, frames,
which instruction writes what (10_state.md R20, R23), the state invariant (R25, R34, R38), fault records. -/

namespace Sys2Proof.Machine

/-! ## Frames -/

/-- The elements of R20, `V` one register at a time and `mem` one byte at a time, and the host's port. -/
inductive Element where
  | mem (a : Nat)
  | pc
  | I
  | stack
  | sp
  | DT
  | ST
  | V (r : RegIdx)
  | fb
  | prevKeys
  | rng
  | fault
  | host
  deriving DecidableEq, Repr

/-- The element reads the same in both states; a byte of memory through the model's own read of one byte. -/
def Element.same : Element → State → State → Prop
  | .mem a, s, t => t.mem.read a = s.mem.read a
  | .pc, s, t => t.pc = s.pc
  | .I, s, t => t.I = s.I
  | .stack, s, t => t.stack = s.stack
  | .sp, s, t => t.sp = s.sp
  | .DT, s, t => t.DT = s.DT
  | .ST, s, t => t.ST = s.ST
  | .V r, s, t => t.reg r = s.reg r
  | .fb, s, t => t.fb = s.fb
  | .prevKeys, s, t => t.prevKeys = s.prevKeys
  | .rng, s, t => t.rng = s.rng
  | .fault, s, t => t.fault = s.fault
  | .host, s, t => t.host = s.host

/-- The frame of a step: from `s` to `t` nothing but the listed elements has changed. -/
def OnlyChanged (written : List Element) (s t : State) : Prop := ∀ e : Element, e ∉ written → e.same s t

/-- The bytes of memory from `a` on, `n` of them. -/
def bytesFrom (a n : Nat) : List Element := (List.range n).map fun k => .mem (a + k)

/-- The registers `V[0]` to `V[n-1]`. -/
def regsBelow (n : Nat) : List Element := ((List.finRange Config.numRegs).filter fun r => decide (r.val < n)).map .V

/-- `exec i s` raises the fault `r`: the next state is `s` with `r` latched and nothing else changed (R181, R183). -/
def Raises (i : Instr) (s : State) (r : FaultRecord) : Prop := exec i s = .next { s with fault := some r }

/-- The next event of `s` is a step, and `s'` is the state it starts from: nothing pending, or a pending `step(keys)` taken
off the list with its keys on the port (log entries 4, 5). Every element of the core is the same in `s'` as in `s`. -/
def StepStarts (s s' : State) : Prop :=
  (s.host.pending = [] ∧ s' = s) ∨
    ∃ keys rest, s.host.pending = .step keys :: rest ∧ s' = { s with host := ⟨keys, rest⟩ }

/-- The opcode at `pc`, its first byte high (R51, R91). -/
def State.opcodeAtPc (s : State) : Word := wordOfBytes (s.mem.read s.pc.toNat) (s.mem.read (s.pc.toNat + 1))

/-- `max(I, 4096)` as the fault record holds it (R188). -/
def State.maxI4096 (s : State) : Word := BitVec.ofNat Config.iWidth (max s.I.toNat Config.memSize)

/-- The events that write neither memory nor `pc` from outside: a step, a tick, `get_state`. -/
def HostEvent.writesNothing : HostEvent → Bool
  | .step _ | .tick | .getState => true
  | .reset | .loadProgram _ | .hostWrite _ _ => false

/-- `n` steps of the model one after another, stopping where one answers no next state. -/
def runSteps : Nat → State → Result
  | 0, s => .next s
  | n + 1, s =>
    match step s with
    | .next t => runSteps n t
    | .fault f => .fault f
    | .refused r => .refused r

/-- A function of the next state, where there is one. -/
def onNext (f : State → State) : Result → Result
  | .next t => .next (f t)
  | .fault e => .fault e
  | .refused r => .refused r

end Sys2Proof.Machine

namespace Sys2Proof
open Machine

/-! ## Which instruction writes what -/

/-- "The instructions that write VF as a side effect ... are exactly these six" (R23). -/
def Instr.writesFlag : Instr → Bool
  | .addReg _ _ | .sub _ _ | .subn _ _ | .shr _ _ | .shl _ _ | .drw _ _ _ => true
  | .cls | .ret | .jp _ | .call _ | .seImm _ _ | .sneImm _ _ | .seReg _ _ | .ldImm _ _ | .addImm _ _ | .ldReg _ _
  | .orReg _ _ | .andReg _ _ | .xorReg _ _ | .sneReg _ _ | .ldI _ | .jpV0 _ | .rnd _ _ | .skp _ | .sknp _ | .ldVxDT _
  | .ldVxK _ | .ldDTVx _ | .ldSTVx _ | .addI _ | .ldF _ | .ldB _ | .dumpRegs _ | .loadRegs _ => false

/-- The registers an instruction names as its destination: `V[x]`, or `V[0]` to `V[x]` for LD Vx,[I]. -/
def Instr.namesDestination (i : Instr) (r : RegIdx) : Bool :=
  match i with
  | .ldImm x _ | .addImm x _ | .ldReg x _ | .orReg x _ | .andReg x _ | .xorReg x _ | .addReg x _ | .sub x _ | .shr x _
  | .subn x _ | .shl x _ | .rnd x _ | .ldVxDT x | .ldVxK x => decide (r = x)
  | .loadRegs x => decide (r.val ≤ x.val)
  | .cls | .ret | .jp _ | .call _ | .seImm _ _ | .sneImm _ _ | .seReg _ _ | .sneReg _ _ | .ldI _ | .jpV0 _ | .drw _ _ _
  | .skp _ | .sknp _ | .ldDTVx _ | .ldSTVx _ | .addI _ | .ldF _ | .ldB _ | .dumpRegs _ => false

/-- How many bytes an instruction stores from `I` on, for the two that store (R54). -/
def Instr.storeLength (i : Instr) : Option Nat :=
  match i with
  | .ldB _ => some 3
  | .dumpRegs x => some (x.val + 1)
  | .cls | .ret | .jp _ | .call _ | .seImm _ _ | .sneImm _ _ | .seReg _ _ | .ldImm _ _ | .addImm _ _ | .ldReg _ _
  | .orReg _ _ | .andReg _ _ | .xorReg _ _ | .addReg _ _ | .sub _ _ | .shr _ _ | .subn _ _ | .shl _ _ | .sneReg _ _
  | .ldI _ | .jpV0 _ | .rnd _ _ | .drw _ _ _ | .skp _ | .sknp _ | .ldVxDT _ | .ldVxK _ | .ldDTVx _ | .ldSTVx _
  | .addI _ | .ldF _ | .loadRegs _ => none

/-- The "written by" column of R20, instruction by instruction: may `i`, run to completion from `s`, write element `e`? Of
memory LD B,Vx writes `I` to `I + 2` and LD [I],Vx `I` to `I + x` (R54). The fetch cycle's advance of `pc` is every
instruction's (R93); `prev_keys` and `fault` are the step's, not an instruction's. -/
def Instr.mayWrite (i : Instr) (s : State) : Element → Bool
  | .mem a => match i.storeLength with
    | some n => decide (Element.mem a ∈ bytesFrom s.I.toNat n)
    | none => false
  | .pc => true
  | .I => match i with
    | .ldI _ | .addI _ | .ldF _ => true
    | _ => false
  | .stack => match i with
    | .call _ => true
    | _ => false
  | .sp => match i with
    | .call _ | .ret => true
    | _ => false
  | .DT => match i with
    | .ldDTVx _ => true
    | _ => false
  | .ST => match i with
    | .ldSTVx _ => true
    | _ => false
  | .V r => i.namesDestination r || (i.writesFlag && decide (r = flagReg))
  | .fb => match i with
    | .cls | .drw _ _ _ => true
    | _ => false
  | .rng => match i with
    | .rnd _ _ => true
    | _ => false
  | .prevKeys => false
  | .fault => false
  | .host => false

/-- The byte an instruction that completes from `s` stores at address `a`, if it stores one there: a digit of LD B,Vx (R171), a
register of LD [I],Vx (R172). -/
def Instr.storedByte (i : Instr) (s : State) (a : Nat) : Option Byte :=
  match i with
  | .ldB x =>
    if a = s.I.toNat then some (BitVec.ofNat Config.regWidth ((s.reg x).toNat / 100))
    else if a = s.I.toNat + 1 then some (BitVec.ofNat Config.regWidth ((s.reg x).toNat / 10 % 10))
    else if a = s.I.toNat + 2 then some (BitVec.ofNat Config.regWidth ((s.reg x).toNat % 10))
    else none
  | .dumpRegs x =>
    if h : s.I.toNat ≤ a ∧ a ≤ s.I.toNat + x.val then
      some (s.reg ⟨a - s.I.toNat, by have := x.isLt; omega⟩)
    else none
  | .cls | .ret | .jp _ | .call _ | .seImm _ _ | .sneImm _ _ | .seReg _ _ | .ldImm _ _ | .addImm _ _ | .ldReg _ _
  | .orReg _ _ | .andReg _ _ | .xorReg _ _ | .addReg _ _ | .sub _ _ | .shr _ _ | .subn _ _ | .shl _ _ | .sneReg _ _
  | .ldI _ | .jpV0 _ | .rnd _ _ | .drw _ _ _ | .skp _ | .sknp _ | .ldVxDT _ | .ldVxK _ | .ldDTVx _ | .ldSTVx _
  | .addI _ | .ldF _ | .loadRegs _ => none

/-- What address `a` holds once `i` has completed from `s`: the byte stored there, else the byte it held. -/
def Instr.byteAfter (i : Instr) (s : State) (a : Nat) : Byte := (i.storedByte s a).getD (s.mem.read a)

/-- The condition of each of the six skips (R114 to R119), none for another instruction. -/
def Instr.skipCondition (i : Instr) (s : State) : Option Bool :=
  match i with
  | .seImm x nn => some (decide (s.reg x = nn))
  | .sneImm x nn => some (decide (s.reg x ≠ nn))
  | .seReg x y => some (decide (s.reg x = s.reg y))
  | .sneReg x y => some (decide (s.reg x ≠ s.reg y))
  | .skp x => some (keyHeld s.host.keys (s.reg x))
  | .sknp x => some (!keyHeld s.host.keys (s.reg x))
  | .cls | .ret | .jp _ | .call _ | .ldImm _ _ | .addImm _ _ | .ldReg _ _ | .orReg _ _ | .andReg _ _ | .xorReg _ _
  | .addReg _ _ | .sub _ _ | .shr _ _ | .subn _ _ | .shl _ _ | .ldI _ | .jpV0 _ | .rnd _ _ | .drw _ _ _ | .ldVxDT _
  | .ldVxK _ | .ldDTVx _ | .ldSTVx _ | .addI _ | .ldF _ | .ldB _ | .dumpRegs _ | .loadRegs _ => none

end Sys2Proof

namespace Sys2Proof.Machine

/-! ## The invariant -/

/-- The shape of a record (R34): the opcode absent only for a fetch fault; kind and address present exactly for an
ExecutionFault, the address outside memory or, for a fetch, the last byte's; code 4 raised by nothing (R187). -/
def FaultRecord.wellFormed (r : FaultRecord) : Bool :=
  match r.code, r.opcode, r.kind, r.addr with
  | .decodeError, some _, none, none => true
  | .stackOverflow, some _, none, none => true
  | .stackUnderflow, some _, none, none => true
  | .executionFault, none, some .fetch, some a => decide (a = r.pc0) && decide (Config.lastFetchAddress < a.toNat)
  | .executionFault, some _, some .read, some a => decide (Config.memSize ≤ a.toNat)
  | .executionFault, some _, some .write, some a => decide (Config.memSize ≤ a.toNat)
  | _, _, _, _ => false

/-- What every reachable state satisfies (R25, R27, R34, R38): canonical memory inside 0 to 4095, `0 ≤ pc ≤ 0x10FE`, every
stack entry a possible return address (at most 4096), and a latched record of a legal shape whose `pc0` is still `pc`
(R183). `0 ≤ sp ≤ 16`, the 2048 cells and the register indices (R38) are in the types. -/
structure State.Inv (s : State) : Prop where
  memWf : s.mem.wf = true
  pcRange : s.pc.toNat ≤ 0x10FE
  stackRange : ∀ k : Fin 16, s.stack[k.val].toNat ≤ Config.memSize
  faultShape : ∀ r, s.fault = some r → r.wellFormed = true ∧ r.pc0 = s.pc

/-- A safe run has latched no fault (R182: "A Faulted machine is never a successful end of a run"). -/
def State.notFaulted (s : State) : Prop := s.fault = none

/-! ## The sprite, cell by cell (R30, R101, R102) -/

/-- Does a set bit of the `n`-row sprite at `base`, drawn at the origin `(ox, oy)`, fall on `(row, column)`? Byte `row - oy` is that
row of the sprite, bit 7 its leftmost pixel. -/
def coveredBy (m : Memory) (base ox oy n row column : Nat) : Bool :=
  decide (oy ≤ row) && decide (row < oy + n) && decide (ox ≤ column) && decide (column < ox + 8) &&
    (m.read (base + (row - oy))).getLsbD (7 - (column - ox))

/-- The same of the sprite at `I`. -/
def spriteCovers (s : State) (ox oy n row column : Nat) : Bool := coveredBy s.mem s.I.toNat ox oy n row column

/-- Cell `(row, column)` of a framebuffer; a place outside the 64×32 grid reads dark. -/
def cellAt (fb : Framebuffer) (row column : Nat) : Bool :=
  if h : row < Config.fbHeight ∧ column < Config.fbWidth then
    fb[row * Config.fbWidth + column]'(by simp only [Config.fbHeight, Config.fbWidth, Config.fbCells] at *; omega)
  else false

/-- Cell `(row, column)` of the state's framebuffer. -/
def State.cell (s : State) (row column : Nat) : Bool := cellAt s.fb row column

end Sys2Proof.Machine
end

