-- ==== Sys2Proof/Certificates/Slice0/Obligations.lean ====
section
/-! DEFINITION. The statements for the provers. `exec i s` is given the state as the step began (`pc = pc0`; log entry 10), so
"`pc = pc0 + 2`" of the spec reads `t.pc = s.pc + 2`. `OnlyChanged [...] s t` is the frame: nothing outside the list has
changed from `s` to `t`, memory read byte by byte. Where a clause rests on a decision D<n> of 92_eei_decisions.md the docstring
names it: it is the spec's own choice, not the source's. -/

open Sys2Proof Sys2Proof.Machine

/-! ## Encoding -/

/-- Words written out from R71 and R76, one a family and more where a family dispatches further. The patterns but 00E0, 1NNN
and BNNN are the spec's general knowledge (K1). -/
def Obligations.SampleWordsDecode : Prop :=
  decodeWord 0x00E0 = .ok .cls ∧ decodeWord 0x00EE = .ok .ret ∧ decodeWord 0x1200 = .ok (.jp 0x200) ∧
  decodeWord 0x220A = .ok (.call 0x20A) ∧ decodeWord 0x3A5C = .ok (.seImm 10 0x5C) ∧ decodeWord 0x4105 = .ok (.sneImm 1 0x05) ∧
  decodeWord 0x5120 = .ok (.seReg 1 2) ∧ decodeWord 0x6A12 = .ok (.ldImm 10 0x12) ∧
  decodeWord 0x7105 = .ok (.addImm 1 0x05) ∧ decodeWord 0x8AB6 = .ok (.shr 10 11) ∧
  decodeWord 0x8127 = .ok (.subn 1 2) ∧ decodeWord 0x9330 = .ok (.sneReg 3 3) ∧
  decodeWord 0xA300 = .ok (.ldI 0x300) ∧ decodeWord 0xB2FE = .ok (.jpV0 0x2FE) ∧ decodeWord 0xC30F = .ok (.rnd 3 0x0F) ∧
  decodeWord 0xD123 = .ok (.drw 1 2 3) ∧ decodeWord 0xE39E = .ok (.skp 3) ∧ decodeWord 0xF265 = .ok (.loadRegs 2)

/-- Every well-formed instruction, laid out in memory with any bytes after it, decodes to itself and leaves those bytes: no bit
of an encoding is dropped (R70, R71, R72, R76). -/
def Obligations.DecodingAnEncodedInstructionGivesItBack : Prop :=
  ∀ (i : Instr) (rest : List Byte), i.wellFormed = true → decode (encodeBytes i ++ rest) = .ok (i, rest)

/-- Each word has at most one meaning, and the decoder emits well-formed instructions only: the word of what a word decodes to
is that word (R71, R74, R76; R79 for the ignored `y` of the shifts, kept as read). -/
def Obligations.EncodingADecodedWordGivesItBack : Prop :=
  ∀ (w : Word) (i : Instr), decodeWord w = .ok i → encode i = w ∧ i.wellFormed = true

/-- The decoder against the opcode map as R76 prints it: a nonzero word decodes to the instruction of every row it matches (so it
matches no two), and a nonzero word that matches no row is turned away as unrecognised, by name (R74, R77; strict decoding is
the spec's decision D14). -/
def Obligations.DecoderAcceptsExactlyTheOpcodeMap : Prop :=
  ∀ w : Word, w ≠ 0x0000 →
    (∀ row ∈ opcodeMap, w &&& row.mask = row.matchBits → ∃ i, decodeWord w = .ok i ∧ i.mnemonic = row.mnemonic) ∧
    ((∀ row ∈ opcodeMap, w &&& row.mask ≠ row.matchBits) → decodeWord w = .error (.unrecognised w))

/-! ## The step cycle -/

/-- Where the bytes at `pc` decode to an instruction, a step is `exec` of it at the state the step starts from, and then, unless
that raised a fault, `prev_keys <- keys`; it reports Executed, or the fault that was raised (R90, R93, R94, R95, R97; the latch
is the spec's decision D2, the three-valued outcome D7). -/
def Obligations.StepRunsTheDecodedInstruction : Prop :=
  ∀ (s s' : State) (i : Instr), StepStarts s s' → s.fault = none → s.pc.toNat ≤ 4094 →
    decode [s.mem.read s.pc.toNat, s.mem.read (s.pc.toNat + 1)] = .ok (i, []) →
    (step s = match exec i s' with
      | .next t => .next (if t.fault = none then { t with prevKeys := s'.host.keys } else t)
      | .fault f => .fault f
      | .refused r => .refused r) ∧
    ∀ t, exec i s' = .next t → reply s = (match t.fault with
      | none => .executed
      | some r => .fault r)

/-- The zero word (R92): the step reports Halted and writes `prev_keys` only. That `prev_keys` is written is decision D2, D20. -/
def Obligations.ZeroWordHaltsWithoutAdvance : Prop :=
  ∀ s s' : State, StepStarts s s' → s.fault = none → s.pc.toNat ≤ 4094 → s.opcodeAtPc = 0x0000 →
    step s = .next { s' with prevKeys := s'.host.keys } ∧ reply s = .halted

/-- "With no host write the machine stays halted for ever" (R92): however many events the host issues, steps with whatever keys,
ticks and `get_state` in any order, nothing but `prev_keys`, the timers and the host's own port changes, the machine is still at
the zero word, and the step that comes next, whenever that is, is Halted. Decisions D1, D2, D20. -/
def Obligations.HaltedMachineStaysHalted : Prop :=
  ∀ (events rest : List HostEvent) (s : State), s.host.pending = events ++ rest →
    (∀ e ∈ events, e.writesNothing = true) → s.fault = none → s.pc.toNat ≤ 4094 → s.opcodeAtPc = 0x0000 →
    ∃ t, runSteps events.length s = .next t ∧ OnlyChanged [.prevKeys, .DT, .ST, .host] s t ∧ t.opcodeAtPc = 0x0000 ∧
      ∀ keys later, rest = .step keys :: later → reply t = .halted

/-- A step that begins with `pc > 4094` fetches nothing and raises ExecutionFault(fetch, addr = pc), the record without an opcode
(R91, R188; the bounds are decision D6, the latched precise record D7). -/
def Obligations.FetchBeyondMemoryRaises : Prop :=
  ∀ s s' : State, StepStarts s s' → s.fault = none → 4094 < s.pc.toNat →
    step s = .next { s' with fault := some ⟨.executionFault, s.pc, none, some .fetch, some s.pc⟩ } ∧
    reply s = .fault ⟨.executionFault, s.pc, none, some .fetch, some s.pc⟩

/-- A nonzero word that matches no row of R76 raises DecodeError naming it, and nothing else changes, `pc` and `prev_keys` included
(R77, R183, R184; strict decoding is decision D14, the latched precise record D7). -/
def Obligations.UnrecognisedWordRaisesDecodeError : Prop :=
  ∀ s s' : State, StepStarts s s' → s.fault = none → s.pc.toNat ≤ 4094 → s.opcodeAtPc ≠ 0x0000 →
    (∀ row ∈ opcodeMap, s.opcodeAtPc &&& row.mask ≠ row.matchBits) →
    step s = .next { s' with fault := some ⟨.decodeError, s.pc, some s.opcodeAtPc, none, none⟩ } ∧
    reply s = .fault ⟨.decodeError, s.pc, some s.opcodeAtPc, none, none⟩

/-- A step that begins and ends without a fault ends with `prev_keys` equal to its `keys`; one that raises a fault leaves
`prev_keys` (R95, the spec's decision D2). -/
def Obligations.StepLatchesKeysUnlessItFaults : Prop :=
  ∀ s s' t : State, StepStarts s s' → s.fault = none → step s = .next t →
    t.prevKeys = if t.fault = none then s'.host.keys else s.prevKeys

/-- Whatever the state and the event, the model's step answers a next state: "a step either fully completes or fails fatally"
(R183), and a fatal condition is a state (R34, R181; decision D7, log entry 7). -/
def Obligations.EveryStepAnswersANextState : Prop :=
  ∀ s : State, ∃ t, step s = .next t

/-! ## Faults -/

/-- "A step issued while `fault ≠ none` changes nothing and reports `Fault(fault)` again" (R96). The fault latch and what it stops
are the spec's decisions D7 and D27; that the event is taken off the host's list and its keys are shown on the port is the
model's choice, log entry 11. -/
def Obligations.StepWhileFaultedChangesNothing : Prop :=
  ∀ (s s' : State) (r : FaultRecord), StepStarts s s' → s.fault = some r → step s = .next s' ∧ reply s = .fault r

/-- Once a fault is latched no event but `reset` changes any element: `step`, `tick`, `load_program`, `host_write` and `get_state`
leave the core as it is, and a `load_program` reports the latched fault (R182, R213; decisions D7 and D27). That the event is
taken off the host's list is the model's choice, log entry 11. -/
def Obligations.OnlyResetLeavesTheFaultedCondition : Prop :=
  ∀ (s t : State) (r : FaultRecord), s.fault = some r → (∀ rest, s.host.pending ≠ .reset :: rest) →
    step s = .next t →
    t = { s with host := t.host } ∧ t.host.pending = s.host.pending.tail ∧
      ∀ bytes rest, s.host.pending = .loadProgram bytes :: rest → reply s = .fault r

/-- The fault-code table (R190, the spec's decision D8): 0 exactly when nothing is latched, 1 to 3 and 5 for what each condition
latches, 4 for the one that nothing raises, 6 for the `LoadError` that `load_program` returns. -/
def Obligations.FaultConditionsCarryTheirCodes : Prop :=
  (∀ s : State, s.condition.number = 0 ↔ s.fault = none) ∧
  (∀ s s' : State, StepStarts s s' → s.fault = none → s.pc.toNat ≤ 4094 → s.opcodeAtPc ≠ 0x0000 →
    (∀ row ∈ opcodeMap, s.opcodeAtPc &&& row.mask ≠ row.matchBits) →
    ∃ t, step s = .next t ∧ t.condition.number = 1 ∧ (reply s).condition.number = 1) ∧
  (∀ (nnn : Addr12) (s : State), s.sp = 16 → ∃ t, exec (.call nnn) s = .next t ∧ t.condition.number = 2) ∧
  (∀ s : State, s.sp = 0 → ∃ t, exec .ret s = .next t ∧ t.condition.number = 3) ∧
  Condition.number (.latched .operandShapeMismatch) = 4 ∧
  (∀ s s' : State, StepStarts s s' → s.fault = none → 4094 < s.pc.toNat →
    ∃ t, step s = .next t ∧ t.condition.number = 5 ∧ (reply s).condition.number = 5) ∧
  (∀ (x y : RegIdx) (n : Nat) (s : State), 1 ≤ n → 4096 < s.I.toNat + n →
    ∃ t, exec (.drw x y n) s = .next t ∧ t.condition.number = 5) ∧
  (∀ (x : RegIdx) (s : State), 4096 < s.I.toNat + 3 → ∃ t, exec (.ldB x) s = .next t ∧ t.condition.number = 5) ∧
  (∀ (x : RegIdx) (s : State), 4096 < s.I.toNat + (x.val + 1) →
    (∃ t, exec (.dumpRegs x) s = .next t ∧ t.condition.number = 5) ∧
    (∃ t, exec (.loadRegs x) s = .next t ∧ t.condition.number = 5)) ∧
  (∀ (s : State) (bytes : List Byte) (rest : List HostEvent), s.host.pending = .loadProgram bytes :: rest →
    s.fault = none → 3584 < bytes.length →
    ∃ t, step s = .next t ∧ t.condition.number = 0 ∧ (reply s).condition.number = 6)

/-- Every fault is precise: the state after an event that latches one is the state before it, but for the record (and the host's
port), and the record's `pc0` is the `pc` the step began with (R181, R183, decision D7). Over all instructions. -/
def Obligations.FaultsArePrecise : Prop :=
  ∀ (s t : State) (r : FaultRecord), s.fault = none → step s = .next t → t.fault = some r →
    t = { s with fault := some r, host := t.host } ∧ r.pc0 = s.pc

/-! ## Invariants and whole-machine rules -/

/-- The reset state satisfies the invariant. -/
def Obligations.ResetSatisfiesInv : Prop := State.reset.Inv

/-- Every step, on every event, keeps the invariant: memory stays canonical and inside 0 to 4095, `pc` stays at most 0x10FE and never
wraps (R25, R38), every stack entry stays a possible return address (R27), and a latched record has a legal shape and still names
`pc` (R34, R183). -/
def Obligations.StepKeepsInv : Prop :=
  ∀ s t : State, s.Inv → step s = .next t → t.Inv

/-- The "written by" column of R20, with R21, R23 and R54: an instruction that does not raise a fault changes no element but those
it writes; of memory, LD B,Vx `I` to `I + 2`, LD [I],Vx `I` to `I + x`, no other instruction any byte. `Instr.mayWrite` is that
column; `prev_keys`, `fault` and the host's port no instruction writes. -/
def Obligations.OnlyTheWritersOfAnElementChangeIt : Prop :=
  ∀ (i : Instr) (s t : State), exec i s = .next t →
    (∃ r, t = { s with fault := some r }) ∨ ∀ e : Element, i.mayWrite s e = false → e.same s t

/-- VF after every instruction (R23): the six flag writers leave the value of the table there, VF as a destination included (the
order is decision D5); every other instruction leaves VF alone unless VF is its named destination. -/
def Obligations.FlagIsWrittenByExactlySixInstructions : Prop :=
  ∀ (i : Instr) (s t : State), exec i s = .next t → (∃ r, t = { s with fault := some r }) ∨
    match i with
    | .addReg x y => t.reg 15 = if 256 ≤ (s.reg x).toNat + (s.reg y).toNat then 1 else 0
    | .sub x y => t.reg 15 = if (s.reg y).toNat ≤ (s.reg x).toNat then 1 else 0
    | .subn x y => t.reg 15 = if (s.reg x).toNat ≤ (s.reg y).toNat then 1 else 0
    | .shr x _ => (t.reg 15).toNat = (s.reg x).toNat % 2
    | .shl x _ => (t.reg 15).toNat = (s.reg x).toNat / 128
    | .drw x y n => (t.reg 15 = 1 ∨ t.reg 15 = 0) ∧ (t.reg 15 = 1 ↔ ∃ row column, row < 32 ∧ column < 64 ∧
        s.cell row column = true ∧ spriteCovers s ((s.reg x).toNat % 64) ((s.reg y).toNat % 32) n row column = true)
    | i => i.namesDestination 15 = true ∨ t.reg 15 = s.reg 15

/-- What a program cannot observe (R32, R33, R39; R29 for `ST`): `prev_keys` is read by LD Vx,K only, the keys by SKP, SKNP and
LD Vx,K only, `rng` by RND only, `ST` by no instruction, and the framebuffer by DRW only. Two states that differ there alone
run alike. -/
def Obligations.HiddenElementsReachOnlyTheirReaders : Prop :=
  ∀ (i : Instr) (s : State),
    ((∀ x, i ≠ .ldVxK x) → ∀ k, exec i { s with prevKeys := k } = onNext (fun t => { t with prevKeys := k }) (exec i s)) ∧
    ((∀ x, i ≠ .ldVxK x ∧ i ≠ .skp x ∧ i ≠ .sknp x) →
      ∀ h, exec i { s with host := h } = onNext (fun t => { t with host := h }) (exec i s)) ∧
    ((∀ x nn, i ≠ .rnd x nn) → ∀ n, exec i { s with rng := n } = onNext (fun t => { t with rng := n }) (exec i s)) ∧
    ((∀ x, i ≠ .ldSTVx x) → ∀ b, exec i { s with ST := b } = onNext (fun t => { t with ST := b }) (exec i s)) ∧
    (i ≠ .cls → (∀ x y n, i ≠ .drw x y n) →
      ∀ f, exec i { s with fb := f } = onNext (fun t => { t with fb := f }) (exec i s))

/-! ## Host events and reset -/

/-- The reset values of R37 (the spec's decision D9). The random source's RNG_SEED is OPEN (log entry 3): nothing is said of it. -/
def Obligations.ResetStateHoldsTheResetValues : Prop :=
  (∀ a, State.reset.mem.read a = 0x00) ∧ State.reset.pc = 512 ∧ State.reset.I = 0x0000 ∧
  (∀ k : Fin 16, State.reset.stack[k.val] = 0x0000) ∧ State.reset.sp = 0 ∧ State.reset.DT = 0 ∧ State.reset.ST = 0 ∧
  (∀ r, State.reset.reg r = 0x00) ∧ (∀ row column, State.reset.cell row column = false) ∧
  State.reset.prevKeys = 0x0000 ∧ State.reset.fault = none

/-- The `reset` event, from any state, Faulted included, sets every element to its reset value (R210; decision D9). The host's own
events still to come stay (log entry 11). -/
def Obligations.ResetEventRestoresEveryElement : Prop :=
  ∀ (s : State) (rest : List HostEvent), s.host.pending = .reset :: rest →
    step s = .next { State.reset with host := ⟨s.host.keys, rest⟩ }

/-- "the first `step` after a bare `reset` fetches 0x0000 and is `Halted`" (R212), whatever keys it is issued with. -/
def Obligations.FirstStepAfterBareResetIsHalted : Prop :=
  ∀ keys : Word, reply { State.reset with host := ⟨0x0000, [.step keys]⟩ } = .halted ∧
    step { State.reset with host := ⟨0x0000, [.step keys]⟩ } = .next { State.reset with prevKeys := keys, host := ⟨keys, []⟩ }

/-- `tick` (R196; decision D1, the stop at zero K9): each timer drops by one and stops at zero; nothing else changes. -/
def Obligations.TickCountsBothTimersDown : Prop :=
  ∀ (s : State) (rest : List HostEvent), s.host.pending = .tick :: rest → s.fault = none →
    ∃ t, step s = .next t ∧ t.DT.toNat = s.DT.toNat - 1 ∧ t.ST.toNat = s.ST.toNat - 1 ∧
      t.host = ⟨s.host.keys, rest⟩ ∧ OnlyChanged [.DT, .ST, .host] s t

/-- `load_program` of at most 3584 bytes (R213): the bytes at 512 onward, `pc = 512`, nothing else; it reports Ok. -/
def Obligations.LoadProgramCopiesTheBytes : Prop :=
  ∀ (s : State) (bytes : List Byte) (rest : List HostEvent), s.host.pending = .loadProgram bytes :: rest →
    s.fault = none → bytes.length ≤ 3584 →
    ∃ t, step s = .next t ∧ reply s = .loaded ∧ t.pc = 512 ∧ t.host = ⟨s.host.keys, rest⟩ ∧
      (∀ k, (h : k < bytes.length) → t.mem.read (512 + k) = bytes[k]) ∧
      OnlyChanged (.pc :: .host :: bytesFrom 512 bytes.length) s t

/-- `load_program` of more than 3584 bytes (R189, R213; decision D17): LoadError, nothing changed, no fault latched. -/
def Obligations.LoadProgramRefusesATooLongProgram : Prop :=
  ∀ (s : State) (bytes : List Byte) (rest : List HostEvent), s.host.pending = .loadProgram bytes :: rest →
    s.fault = none → 3584 < bytes.length →
    reply s = .loadError ∧ step s = .next { s with host := ⟨s.host.keys, rest⟩ }

/-- `host_write(addr, byte)` sets that byte and nothing else (R214, decision D18). -/
def Obligations.HostWriteSetsOneByte : Prop :=
  ∀ (s : State) (addr : Addr12) (byte : Byte) (rest : List HostEvent), s.host.pending = .hostWrite addr byte :: rest →
    s.fault = none →
    ∃ t, step s = .next t ∧ t.mem.read addr.toNat = byte ∧ t.host = ⟨s.host.keys, rest⟩ ∧
      OnlyChanged [.mem addr.toNat, .host] s t

/-- `get_state` returns the value of the whole MachineState and the fault, Faulted or not, and changes nothing (R201). -/
def Obligations.GetStateReadsAndChangesNothing : Prop :=
  ∀ (s : State) (rest : List HostEvent), s.host.pending = .getState :: rest →
    step s = .next { s with host := ⟨s.host.keys, rest⟩ } ∧
    reply s = .snapshot ⟨s.mem, s.pc, s.I, s.stack, s.sp, s.DT, s.ST, s.V, s.fb, s.fault⟩

/-! ## Display -/

/-- CLS (R100). -/
def Obligations.ClsDarkensEveryCell : Prop :=
  decodeWord 0x00E0 = .ok .cls ∧
  ∀ s : State, ∃ t, exec .cls s = .next t ∧ t.pc = s.pc + 2 ∧ (∀ k : Fin 2048, t.fb[k.val] = false) ∧
    OnlyChanged [.pc, .fb] s t

/-- DRW where its bytes are in memory or there are none (R101, R102): every cell is XORed with the sprite's bit on it, clipped cells
take no part, VF is 1 exactly when a lit cell was cleared, and `pc = pc0 + 2`. Bit 7 leftmost is general knowledge K4; that the
origin is read before VF is written, D5. -/
def Obligations.DrwXorsTheSpriteAndReportsCollision : Prop :=
  ∀ (x y : RegIdx) (n : Nat) (s : State), n = 0 ∨ s.I.toNat + n ≤ 4096 →
    ∃ t, exec (.drw x y n) s = .next t ∧ t.pc = s.pc + 2 ∧
      (∀ row column, row < 32 → column < 64 → t.cell row column =
        (s.cell row column ^^ spriteCovers s ((s.reg x).toNat % 64) ((s.reg y).toNat % 32) n row column)) ∧
      (t.reg 15 = 1 ∨ t.reg 15 = 0) ∧
      (t.reg 15 = 1 ↔ ∃ row column, row < 32 ∧ column < 64 ∧ s.cell row column = true ∧
        spriteCovers s ((s.reg x).toNat % 64) ((s.reg y).toNat % 32) n row column = true) ∧
      OnlyChanged [.pc, .fb, .V 15] s t

/-- DRW with a byte of its sprite outside memory raises ExecutionFault(read, max(I, 4096)), clipped rows included (R102, R188;
decisions D6, D21, D7). -/
def Obligations.DrwOutsideMemoryRaises : Prop :=
  ∀ (x y : RegIdx) (n : Nat) (s : State), 1 ≤ n → 4096 < s.I.toNat + n →
    Raises (.drw x y n) s ⟨.executionFault, s.pc, some (encode (.drw x y n)), some .read, some s.maxI4096⟩

/-- "Drawing the same sprite twice at the same location with no other state change toggles every touched pixel back to its original
value and reports a collision (VF = 1) on the second draw if any bit was set on the first" (R103); a coordinate in VF is the
change R103 excludes. -/
def Obligations.DrawingTwiceRestoresTheFramebuffer : Prop :=
  ∀ (x y : RegIdx) (n : Nat) (s : State), x ≠ 15 → y ≠ 15 → n = 0 ∨ s.I.toNat + n ≤ 4096 →
    ∃ t u, exec (.drw x y n) s = .next t ∧ exec (.drw x y n) t = .next u ∧ u.fb = s.fb ∧
      ((∃ row column, row < 32 ∧ column < 64 ∧ s.cell row column = false ∧ t.cell row column = true) → u.reg 15 = 1)

/-! ## Control transfer -/

/-- RET with a nonempty stack (R110): the newest entry to `pc`, `sp` down by one, the entry not cleared (R27, D19). -/
def Obligations.RetPopsTheNewestEntry : Prop :=
  ∀ (s : State) (d : Fin 16), s.sp.val = d.val + 1 →
    ∃ t, exec .ret s = .next t ∧ t.pc = s.stack[d.val] ∧ t.sp.val = d.val ∧ OnlyChanged [.pc, .sp] s t

/-- RET with an empty stack raises StackUnderflow (R110, R186; the latched precise record is decision D7). -/
def Obligations.RetOnEmptyStackRaises : Prop :=
  ∀ s : State, s.sp = 0 → Raises .ret s ⟨.stackUnderflow, s.pc, some 0x00EE, none, none⟩

/-- JP nnn (R111). -/
def Obligations.JpSetsPc : Prop :=
  (∀ nnn, decodeWord (formatNNN 0x1 nnn) = .ok (.jp nnn)) ∧
  ∀ (nnn : Addr12) (s : State), ∃ t, exec (.jp nnn) s = .next t ∧ t.pc.toNat = nnn.toNat ∧ OnlyChanged [.pc] s t

/-- CALL nnn with room on the stack (R112): `pc0 + 2` pushed (decision D31), `sp` up by one, `pc = nnn`; every other entry as it
was. -/
def Obligations.CallPushesTheReturnAddress : Prop :=
  ∀ (nnn : Addr12) (s : State) (d : Fin 16), s.sp.val = d.val →
    ∃ t, exec (.call nnn) s = .next t ∧ t.pc.toNat = nnn.toNat ∧ t.sp.val = d.val + 1 ∧ t.stack[d.val] = s.pc + 2 ∧
      (∀ k : Fin 16, k ≠ d → t.stack[k.val] = s.stack[k.val]) ∧ OnlyChanged [.pc, .sp, .stack] s t

/-- CALL with a full stack raises StackOverflow (R112, R185; the latched precise record is decision D7). -/
def Obligations.CallOnFullStackRaises : Prop :=
  ∀ (nnn : Addr12) (s : State), s.sp = 16 →
    Raises (.call nnn) s ⟨.stackOverflow, s.pc, some (formatNNN 0x2 nnn), none, none⟩

/-- A CALL, then a RET as the subroutine's first instruction, leaves `pc = pc0 + 2` and `sp` as before (R121; decision D31). -/
def Obligations.CallThenRetComesBack : Prop :=
  ∀ (nnn : Addr12) (s : State), s.sp.val < 16 →
    ∃ t u, exec (.call nnn) s = .next t ∧ exec .ret t = .next u ∧ u.pc = s.pc + 2 ∧ u.sp = s.sp

/-- JP V0,nnn (R113): the full sum, no mask (decision D30). -/
def Obligations.JpV0AddsV0 : Prop :=
  ∀ (nnn : Addr12) (s : State),
    ∃ t, exec (.jpV0 nnn) s = .next t ∧ t.pc.toNat = nnn.toNat + (s.reg 0).toNat ∧ OnlyChanged [.pc] s t

/-- The one effect of the six skips (R120): `pc0 + 4` when the condition holds, else `pc0 + 2`, and nothing else; what memory holds,
the two bytes skipped included, makes no difference; a skip at 4094 leaves `pc = 4098`, where nothing can be fetched. The
conditions themselves are R114 to R119 (a key index above 15 is decision D11, no part of R120). -/
def Obligations.SixSkipsShareOneEffect : Prop :=
  ∀ (i : Instr) (s : State) (taken : Bool), i.skipCondition s = some taken →
    exec i s = .next { s with pc := if taken then s.pc + 4 else s.pc + 2 } ∧
    (∀ m, exec i { s with mem := m } = .next { s with mem := m, pc := if taken then s.pc + 4 else s.pc + 2 }) ∧
    (s.pc.toNat = 4094 → taken = true → ∃ t, exec i s = .next t ∧ t.pc.toNat = 4098 ∧ fetch t = none)

/-- SE Vx,nn and SNE Vx,nn (R114, R115). -/
def Obligations.SkipsOnALiteral : Prop :=
  (∀ x nn, decodeWord (formatXNN 0x3 x nn) = .ok (.seImm x nn) ∧ decodeWord (formatXNN 0x4 x nn) = .ok (.sneImm x nn)) ∧
  ∀ (x : RegIdx) (nn : Byte) (s : State),
    (∃ t, exec (.seImm x nn) s = .next t ∧ t.pc = (if s.reg x = nn then s.pc + 4 else s.pc + 2) ∧ OnlyChanged [.pc] s t) ∧
    (∃ t, exec (.sneImm x nn) s = .next t ∧ t.pc = (if s.reg x = nn then s.pc + 2 else s.pc + 4) ∧ OnlyChanged [.pc] s t)

/-- SE Vx,Vy and SNE Vx,Vy (R116, R117). That a nonzero low nibble is no such instruction is decision D14. -/
def Obligations.SkipsOnARegister : Prop :=
  (∀ x y n, decodeWord (formatXYN 0x5 x y n) =
    if n = 0 then .ok (.seReg x y) else .error (.unrecognised (formatXYN 0x5 x y n))) ∧
  (∀ x y n, decodeWord (formatXYN 0x9 x y n) =
    if n = 0 then .ok (.sneReg x y) else .error (.unrecognised (formatXYN 0x9 x y n))) ∧
  ∀ (x y : RegIdx) (s : State),
    (∃ t, exec (.seReg x y) s = .next t ∧ t.pc = (if s.reg x = s.reg y then s.pc + 4 else s.pc + 2) ∧
      OnlyChanged [.pc] s t) ∧
    (∃ t, exec (.sneReg x y) s = .next t ∧ t.pc = (if s.reg x = s.reg y then s.pc + 2 else s.pc + 4) ∧
      OnlyChanged [.pc] s t)

/-- SKP Vx and SKNP Vx (R118, R119) test this step's `keys`; an index above 15 names no key and is not held (decision D11). -/
def Obligations.SkipsOnAKey : Prop :=
  ∀ (x : RegIdx) (s : State),
    (∃ t, exec (.skp x) s = .next t ∧ OnlyChanged [.pc] s t ∧
      t.pc = if (s.reg x).toNat ≤ 15 ∧ s.host.keys.getLsbD (s.reg x).toNat = true then s.pc + 4 else s.pc + 2) ∧
    (∃ t, exec (.sknp x) s = .next t ∧ OnlyChanged [.pc] s t ∧
      t.pc = if (s.reg x).toNat ≤ 15 ∧ s.host.keys.getLsbD (s.reg x).toNat = true then s.pc + 2 else s.pc + 4)

/-! ## Arithmetic, logic, shifts -/

/-- ADD Vx,nn (R130): modulo 256, VF untouched unless it is `V[x]`. -/
def Obligations.AddLiteralWrapsWithoutFlag : Prop :=
  (∀ x nn, decodeWord (formatXNN 0x7 x nn) = .ok (.addImm x nn)) ∧
  ∀ (x : RegIdx) (nn : Byte) (s : State), ∃ t, exec (.addImm x nn) s = .next t ∧ t.pc = s.pc + 2 ∧
    (t.reg x).toNat = ((s.reg x).toNat + nn.toNat) % 256 ∧ OnlyChanged [.pc, .V x] s t

/-- ADD Vx,Vy (R132): the low 8 bits of the sum, VF the carry, written last, so that with `x = 15` the flag stays (D5). -/
def Obligations.AddRegistersSetsCarry : Prop :=
  ∀ (x y : RegIdx) (s : State), ∃ t, exec (.addReg x y) s = .next t ∧ t.pc = s.pc + 2 ∧
    (x ≠ 15 → (t.reg x).toNat = ((s.reg x).toNat + (s.reg y).toNat) % 256) ∧
    (t.reg 15 = if 256 ≤ (s.reg x).toNat + (s.reg y).toNat then 1 else 0) ∧ OnlyChanged [.pc, .V x, .V 15] s t

/-- ADD I,Vx (R133): modulo 65536 (decision D12), VF untouched. -/
def Obligations.AddIndexWrapsAt16Bits : Prop :=
  ∀ (x : RegIdx) (s : State), ∃ t, exec (.addI x) s = .next t ∧ t.pc = s.pc + 2 ∧
    t.I.toNat = (s.I.toNat + (s.reg x).toNat) % 65536 ∧ OnlyChanged [.pc, .I] s t

/-- SUB Vx,Vy (R135) and SUBN Vx,Vy (R136, the reversed operands, K5): the difference modulo 256, VF 1 exactly when no borrow
occurred, written last (D5). -/
def Obligations.SubtractionsSetNoBorrow : Prop :=
  ∀ (x y : RegIdx) (s : State),
    (∃ t, exec (.sub x y) s = .next t ∧ t.pc = s.pc + 2 ∧
      (x ≠ 15 → (t.reg x).toNat = (256 + (s.reg x).toNat - (s.reg y).toNat) % 256) ∧
      (t.reg 15 = if (s.reg y).toNat ≤ (s.reg x).toNat then 1 else 0) ∧ OnlyChanged [.pc, .V x, .V 15] s t) ∧
    (∃ t, exec (.subn x y) s = .next t ∧ t.pc = s.pc + 2 ∧
      (x ≠ 15 → (t.reg x).toNat = (256 + (s.reg y).toNat - (s.reg x).toNat) % 256) ∧
      (t.reg 15 = if (s.reg x).toNat ≤ (s.reg y).toNat then 1 else 0) ∧ OnlyChanged [.pc, .V x, .V 15] s t)

/-- OR, AND, XOR (R137, R138, R139): bit by bit, no flag. -/
def Obligations.LogicOperationsWorkBitwiseWithoutFlag : Prop :=
  (∀ x y, decodeWord (formatXYN 0x8 x y 0x1) = .ok (.orReg x y) ∧ decodeWord (formatXYN 0x8 x y 0x2) = .ok (.andReg x y) ∧
    decodeWord (formatXYN 0x8 x y 0x3) = .ok (.xorReg x y)) ∧
  ∀ (x y : RegIdx) (s : State),
    (∃ t, exec (.orReg x y) s = .next t ∧ t.pc = s.pc + 2 ∧ OnlyChanged [.pc, .V x] s t ∧
      ∀ k, (t.reg x).getLsbD k = ((s.reg x).getLsbD k || (s.reg y).getLsbD k)) ∧
    (∃ t, exec (.andReg x y) s = .next t ∧ t.pc = s.pc + 2 ∧ OnlyChanged [.pc, .V x] s t ∧
      ∀ k, (t.reg x).getLsbD k = ((s.reg x).getLsbD k && (s.reg y).getLsbD k)) ∧
    (∃ t, exec (.xorReg x y) s = .next t ∧ t.pc = s.pc + 2 ∧ OnlyChanged [.pc, .V x] s t ∧
      ∀ k, (t.reg x).getLsbD k = ((s.reg x).getLsbD k ^^ (s.reg y).getLsbD k))

/-- SHR Vx and SHL Vx (R140, R141, R142): one bit, zero filled, `V[y]` neither read nor written whatever `y` is (D15); VF is the bit
shifted out, 0 as well as 1 (D4), written last (D5). -/
def Obligations.ShiftsMoveOneBitIntoTheFlag : Prop :=
  ∀ (x y : RegIdx) (s : State),
    (∃ t, exec (.shr x y) s = .next t ∧ t.pc = s.pc + 2 ∧ (x ≠ 15 → (t.reg x).toNat = (s.reg x).toNat / 2) ∧
      (t.reg 15).toNat = (s.reg x).toNat % 2 ∧ OnlyChanged [.pc, .V x, .V 15] s t) ∧
    (∃ t, exec (.shl x y) s = .next t ∧ t.pc = s.pc + 2 ∧ (x ≠ 15 → (t.reg x).toNat = (s.reg x).toNat * 2 % 256) ∧
      (t.reg 15).toNat = (s.reg x).toNat / 128 ∧ OnlyChanged [.pc, .V x, .V 15] s t)

/-! ## Set and move -/

/-- LD Vx,nn, LD Vx,Vy, LD I,nnn (R150, R151, R152; all three the spec's general knowledge K2, decision D23). -/
def Obligations.LoadsSetTheirDestination : Prop :=
  (∀ (x : RegIdx) (nn : Byte) (s : State),
    ∃ t, exec (.ldImm x nn) s = .next t ∧ t.pc = s.pc + 2 ∧ t.reg x = nn ∧ OnlyChanged [.pc, .V x] s t) ∧
  (∀ (x y : RegIdx) (s : State),
    ∃ t, exec (.ldReg x y) s = .next t ∧ t.pc = s.pc + 2 ∧ t.reg x = s.reg y ∧ OnlyChanged [.pc, .V x] s t) ∧
  (∀ (nnn : Addr12) (s : State),
    ∃ t, exec (.ldI nnn) s = .next t ∧ t.pc = s.pc + 2 ∧ t.I.toNat = nnn.toNat ∧ OnlyChanged [.pc, .I] s t)

/-! ## Random, timers, keys -/

/-- RND Vx,nn (R160): the byte the random source gives, ANDed with the mask; the source advances, whatever the mask. The source is
the model's `rngNext`, its byte a free value (R7, R33; decision D10, log entry 2): this holds for every value of `rng`. -/
def Obligations.RndMasksTheDrawnByte : Prop :=
  ∀ (x : RegIdx) (nn : Byte) (s : State), ∃ t, exec (.rnd x nn) s = .next t ∧ t.pc = s.pc + 2 ∧
    t.reg x = (rngNext s.rng).1 &&& nn ∧ t.rng = (rngNext s.rng).2 ∧
    (∀ k, nn.getLsbD k = false → (t.reg x).getLsbD k = false) ∧ OnlyChanged [.pc, .V x, .rng] s t

/-- LD Vx,DT, LD DT,Vx, LD ST,Vx (R161, R162, R163). -/
def Obligations.TimerMovesCopy : Prop :=
  (∀ x, decodeWord (formatX 0xF x 0x07) = .ok (.ldVxDT x) ∧ decodeWord (formatX 0xF x 0x15) = .ok (.ldDTVx x) ∧
    decodeWord (formatX 0xF x 0x18) = .ok (.ldSTVx x)) ∧
  ∀ (x : RegIdx) (s : State),
    (∃ t, exec (.ldVxDT x) s = .next t ∧ t.pc = s.pc + 2 ∧ t.reg x = s.DT ∧ OnlyChanged [.pc, .V x] s t) ∧
    (∃ t, exec (.ldDTVx x) s = .next t ∧ t.pc = s.pc + 2 ∧ t.DT = s.reg x ∧ OnlyChanged [.pc, .DT] s t) ∧
    (∃ t, exec (.ldSTVx x) s = .next t ∧ t.pc = s.pc + 2 ∧ t.ST = s.reg x ∧ OnlyChanged [.pc, .ST] s t)

/-- LD Vx,K (R164, R165): with the keys unchanged nothing changes at all, `pc` rewound to the instruction; with any key changed, a
release as well as a press (D3), `V[x]` gets the lowest changed key's index and `pc = pc0 + 2`. -/
def Obligations.KeyWaitRepeatsUntilAKeyChanges : Prop :=
  ∀ (x : RegIdx) (s : State),
    (s.host.keys = s.prevKeys → exec (.ldVxK x) s = .next s) ∧
    (s.host.keys ≠ s.prevKeys → ∃ t k, exec (.ldVxK x) s = .next t ∧ t.pc = s.pc + 2 ∧ k < 16 ∧
      (t.reg x).toNat = k ∧ s.host.keys.getLsbD k ≠ s.prevKeys.getLsbD k ∧
      (∀ j, j < k → s.host.keys.getLsbD j = s.prevKeys.getLsbD j) ∧ OnlyChanged [.pc, .V x] s t)

/-! ## Index register and memory -/

/-- LD F,Vx (R170): the full byte, not its low nibble (D29). -/
def Obligations.LdFComputesTheGlyphAddress : Prop :=
  ∀ (x : RegIdx) (s : State), ∃ t, exec (.ldF x) s = .next t ∧ t.pc = s.pc + 2 ∧
    t.I.toNat = 0x50 + 5 * (s.reg x).toNat ∧ OnlyChanged [.pc, .I] s t

/-- LD B,Vx inside memory (R171): the three digits, hundreds at `I`; `I` unchanged; every other byte as it was. -/
def Obligations.LdBStoresThreeDigits : Prop :=
  ∀ (x : RegIdx) (s : State), s.I.toNat + 3 ≤ 4096 →
    ∃ t, exec (.ldB x) s = .next t ∧ t.pc = s.pc + 2 ∧
      (t.mem.read s.I.toNat).toNat = (s.reg x).toNat / 100 ∧
      (t.mem.read (s.I.toNat + 1)).toNat = (s.reg x).toNat / 10 % 10 ∧
      (t.mem.read (s.I.toNat + 2)).toNat = (s.reg x).toNat % 10 ∧
      OnlyChanged (.pc :: bytesFrom s.I.toNat 3) s t

/-- LD [I],Vx inside memory (R172): `V[0]` to `V[x]` at `I` onward, `I` unchanged (D13), every other byte as it was. -/
def Obligations.DumpStoresTheRegisterRange : Prop :=
  ∀ (x : RegIdx) (s : State), s.I.toNat + (x.val + 1) ≤ 4096 →
    ∃ t, exec (.dumpRegs x) s = .next t ∧ t.pc = s.pc + 2 ∧
      (∀ k : RegIdx, k.val ≤ x.val → t.mem.read (s.I.toNat + k.val) = s.reg k) ∧
      OnlyChanged (.pc :: bytesFrom s.I.toNat (x.val + 1)) s t

/-- LD Vx,[I] inside memory (R173): the bytes at `I` onward to `V[0]` to `V[x]`; the registers above, `I` (D13) and memory as they
were. -/
def Obligations.LoadFillsTheRegisterRange : Prop :=
  ∀ (x : RegIdx) (s : State), s.I.toNat + (x.val + 1) ≤ 4096 →
    ∃ t, exec (.loadRegs x) s = .next t ∧ t.pc = s.pc + 2 ∧
      (∀ k : RegIdx, k.val ≤ x.val → t.reg k = s.mem.read (s.I.toNat + k.val)) ∧
      OnlyChanged (.pc :: regsBelow (x.val + 1)) s t

/-- LD B,Vx, LD [I],Vx and LD Vx,[I] with a byte outside memory raise ExecutionFault(write or read, max(I, 4096)) before any change
(R53, R171 to R173, R188; decisions D6, D7). -/
def Obligations.IndexedAccessOutsideMemoryRaises : Prop :=
  ∀ (x : RegIdx) (s : State),
    (4096 < s.I.toNat + 3 →
      Raises (.ldB x) s ⟨.executionFault, s.pc, some (formatX 0xF x 0x33), some .write, some s.maxI4096⟩) ∧
    (4096 < s.I.toNat + (x.val + 1) →
      Raises (.dumpRegs x) s ⟨.executionFault, s.pc, some (formatX 0xF x 0x55), some .write, some s.maxI4096⟩ ∧
      Raises (.loadRegs x) s ⟨.executionFault, s.pc, some (formatX 0xF x 0x65), some .read, some s.maxI4096⟩)

/-- "a store made by one step is seen by the fetch of the very next step" (R61), for both instructions that store, LD B,Vx and
LD [I],Vx: after the store every address reads the byte stored there, or else the byte it held, and the next opcode is fetched
from just those, whether the store covers both of its bytes, one or none. -/
def Obligations.StoredBytesAreFetchedNext : Prop :=
  ∀ (i : Instr) (n : Nat) (s : State), i.storeLength = some n → s.I.toNat + n ≤ 4096 →
    ∃ t, exec i s = .next t ∧ (∀ a, t.mem.read a = i.byteAfter s a) ∧
      (s.pc.toNat ≤ 4092 →
        fetch t = some (wordOfBytes (i.byteAfter s (s.pc.toNat + 2)) (i.byteAfter s (s.pc.toNat + 3))))
end

