-- ==== Sys2Proof/Laws/Decode.lean ====
section
/-! SUPPORT. Cutting a word into its fields undoes putting it together from them, format by format (R71, R72). -/

namespace Sys2Proof

/-- A register index with the bound as a numeral, for `omega`, which does not look into `Config.numRegs`. -/
theorem regIdx_lt (x : RegIdx) : x.val < 16 := x.isLt

/-! ## Formats and fields as numbers -/

theorem toNat_concat {m n : Nat} (a : BitVec m) (b : BitVec n) : (a ++ b).toNat = a.toNat * 2 ^ n + b.toNat := by
  rw [BitVec.toNat_append, ← Nat.shiftLeft_add_eq_or_of_lt b.isLt, Nat.shiftLeft_eq]

theorem formatNNN_toNat (f : BitVec 4) (nnn : Addr12) : (formatNNN f nnn).toNat = f.toNat * 4096 + nnn.toNat :=
  toNat_concat f nnn

theorem formatXNN_toNat (f : BitVec 4) (x : RegIdx) (nn : Byte) :
    (formatXNN f x nn).toNat = f.toNat * 4096 + x.val * 256 + nn.toNat := by
  have h : (formatXNN f x nn).toNat = _ := toNat_concat (f ++ regField x) nn
  rw [h, toNat_concat]; simp [regField]; omega

theorem formatXYN_toNat (f : BitVec 4) (x y : RegIdx) (n : BitVec 4) :
    (formatXYN f x y n).toNat = f.toNat * 4096 + x.val * 256 + y.val * 16 + n.toNat := by
  have h : (formatXYN f x y n).toNat = _ := toNat_concat (f ++ regField x ++ regField y) n
  rw [h, toNat_concat, toNat_concat]; simp [regField]; omega

theorem wordOfBytes_toNat (hi lo : Byte) : (wordOfBytes hi lo).toNat = hi.toNat * 256 + lo.toNat := toNat_concat hi lo

theorem fieldFamily_toNat (w : Word) : (fieldFamily w).toNat = w.toNat / 4096 := by
  have := w.isLt
  simp [fieldFamily, Nat.shiftRight_eq_div_pow]; omega

theorem fieldX_val (w : Word) : (fieldX w).val = w.toNat / 256 % 16 := by simp [fieldX, Nat.shiftRight_eq_div_pow]

theorem fieldY_val (w : Word) : (fieldY w).val = w.toNat / 16 % 16 := by simp [fieldY, Nat.shiftRight_eq_div_pow]

theorem fieldN_toNat (w : Word) : (fieldN w).toNat = w.toNat % 16 := by simp [fieldN]

theorem fieldNN_toNat (w : Word) : (fieldNN w).toNat = w.toNat % 256 := by simp [fieldNN]

theorem fieldNNN_toNat (w : Word) : (fieldNNN w).toNat = w.toNat % 4096 := by simp [fieldNNN]

/-! ## Fields of a format -/

theorem fieldFamily_formatNNN (f : BitVec 4) (nnn : Addr12) : fieldFamily (formatNNN f nnn) = f := by
  apply BitVec.eq_of_toNat_eq; rw [fieldFamily_toNat, formatNNN_toNat]; have := nnn.isLt; omega

theorem fieldNNN_formatNNN (f : BitVec 4) (nnn : Addr12) : fieldNNN (formatNNN f nnn) = nnn := by
  apply BitVec.eq_of_toNat_eq; rw [fieldNNN_toNat, formatNNN_toNat]; have := nnn.isLt; omega

theorem fieldFamily_formatXNN (f : BitVec 4) (x : RegIdx) (nn : Byte) : fieldFamily (formatXNN f x nn) = f := by
  apply BitVec.eq_of_toNat_eq; rw [fieldFamily_toNat, formatXNN_toNat]; have := nn.isLt; have := regIdx_lt x; omega

theorem fieldX_formatXNN (f : BitVec 4) (x : RegIdx) (nn : Byte) : fieldX (formatXNN f x nn) = x := by
  apply Fin.ext; rw [fieldX_val, formatXNN_toNat]; have := nn.isLt; have := regIdx_lt x; omega

theorem fieldNN_formatXNN (f : BitVec 4) (x : RegIdx) (nn : Byte) : fieldNN (formatXNN f x nn) = nn := by
  apply BitVec.eq_of_toNat_eq; rw [fieldNN_toNat, formatXNN_toNat]; have := nn.isLt; have := regIdx_lt x; omega

theorem fieldFamily_formatXYN (f : BitVec 4) (x y : RegIdx) (n : BitVec 4) :
    fieldFamily (formatXYN f x y n) = f := by
  apply BitVec.eq_of_toNat_eq; rw [fieldFamily_toNat, formatXYN_toNat]; have := n.isLt; have := regIdx_lt x; have := regIdx_lt y; omega

theorem fieldX_formatXYN (f : BitVec 4) (x y : RegIdx) (n : BitVec 4) : fieldX (formatXYN f x y n) = x := by
  apply Fin.ext; rw [fieldX_val, formatXYN_toNat]; have := n.isLt; have := regIdx_lt x; have := regIdx_lt y; omega

theorem fieldY_formatXYN (f : BitVec 4) (x y : RegIdx) (n : BitVec 4) : fieldY (formatXYN f x y n) = y := by
  apply Fin.ext; rw [fieldY_val, formatXYN_toNat]; have := n.isLt; have := regIdx_lt x; have := regIdx_lt y; omega

theorem fieldN_formatXYN (f : BitVec 4) (x y : RegIdx) (n : BitVec 4) : fieldN (formatXYN f x y n) = n := by
  apply BitVec.eq_of_toNat_eq; rw [fieldN_toNat, formatXYN_toNat]; have := n.isLt; have := regIdx_lt x; have := regIdx_lt y; omega

/-! ## A word is its fields put together -/

theorem formatNNN_fields (w : Word) : formatNNN (fieldFamily w) (fieldNNN w) = w := by
  apply BitVec.eq_of_toNat_eq; rw [formatNNN_toNat, fieldFamily_toNat, fieldNNN_toNat]; omega

theorem formatXNN_fields (w : Word) : formatXNN (fieldFamily w) (fieldX w) (fieldNN w) = w := by
  apply BitVec.eq_of_toNat_eq; rw [formatXNN_toNat, fieldFamily_toNat, fieldX_val, fieldNN_toNat]; omega

theorem formatXYN_fields (w : Word) : formatXYN (fieldFamily w) (fieldX w) (fieldY w) (fieldN w) = w := by
  apply BitVec.eq_of_toNat_eq
  rw [formatXYN_toNat, fieldFamily_toNat, fieldX_val, fieldY_val, fieldN_toNat]; omega

/-! ## Bytes and words -/

theorem wordOfBytes_extract (w : Word) : wordOfBytes (w.extractLsb' 8 8) (w.extractLsb' 0 8) = w := by
  have := w.isLt
  apply BitVec.eq_of_toNat_eq; rw [wordOfBytes_toNat]; simp [Nat.shiftRight_eq_div_pow]; omega

/-! ## Masks (R76) -/

theorem formatNNN_mask (f : BitVec 4) (nnn : Addr12) : formatNNN f nnn &&& 0xF000 = formatNNN f 0x000 := by
  have h : (f ++ nnn) &&& (0xF#4 ++ 0x000#12) = (f &&& 0xF#4) ++ (nnn &&& 0x000#12) := BitVec.and_append
  rw [show f &&& 0xF#4 = f from BitVec.and_allOnes, BitVec.and_zero] at h
  exact h

theorem formatXNN_eq_formatNNN (f : BitVec 4) (x : RegIdx) (nn : Byte) :
    formatXNN f x nn = formatNNN f (regField x ++ nn) := by
  have h := toNat_concat (regField x) nn
  apply BitVec.eq_of_toNat_eq; rw [formatXNN_toNat, formatNNN_toNat]; simp [regField] at *; omega

theorem formatXYN_eq_formatNNN (f : BitVec 4) (x y : RegIdx) (n : BitVec 4) :
    formatXYN f x y n = formatNNN f (regField x ++ regField y ++ n) := by
  have h := toNat_concat (regField x ++ regField y) n
  have h' := toNat_concat (regField x) (regField y)
  apply BitVec.eq_of_toNat_eq; rw [formatXYN_toNat, formatNNN_toNat]; simp [regField] at *; omega

/-- Format X: family and low byte are fixed. -/
theorem formatX_mask (f : BitVec 4) (x : RegIdx) (low : Byte) : formatX f x low &&& 0xF0FF = formatX f 0 low := by
  have h : (f ++ regField x ++ low) &&& (0xF#4 ++ 0x0#4 ++ 0xFF#8) =
      ((f ++ regField x) &&& (0xF#4 ++ 0x0#4)) ++ (low &&& 0xFF#8) := BitVec.and_append
  have h' : (f ++ regField x) &&& (0xF#4 ++ 0x0#4) = (f &&& 0xF#4) ++ (regField x &&& 0x0#4) := BitVec.and_append
  rw [h', show f &&& 0xF#4 = f from BitVec.and_allOnes, show low &&& 0xFF#8 = low from BitVec.and_allOnes,
    BitVec.and_zero] at h
  exact h

/-- Format XY: family and low nibble are fixed. -/
theorem formatXYN_mask (f : BitVec 4) (x y : RegIdx) (n : BitVec 4) :
    formatXYN f x y n &&& 0xF00F = formatXYN f 0 0 n := by
  have h : (f ++ regField x ++ regField y ++ n) &&& (0xF#4 ++ 0x0#4 ++ 0x0#4 ++ 0xF#4) =
      ((f ++ regField x ++ regField y) &&& (0xF#4 ++ 0x0#4 ++ 0x0#4)) ++ (n &&& 0xF#4) := BitVec.and_append
  have h' : (f ++ regField x ++ regField y) &&& (0xF#4 ++ 0x0#4 ++ 0x0#4) =
      ((f ++ regField x) &&& (0xF#4 ++ 0x0#4)) ++ (regField y &&& 0x0#4) := BitVec.and_append
  have h'' : (f ++ regField x) &&& (0xF#4 ++ 0x0#4) = (f &&& 0xF#4) ++ (regField x &&& 0x0#4) := BitVec.and_append
  rw [h', h'', show f &&& 0xF#4 = f from BitVec.and_allOnes, show n &&& 0xF#4 = n from BitVec.and_allOnes,
    BitVec.and_zero, BitVec.and_zero] at h
  exact h

/-! ## The decoder, family by family (R74) -/

theorem nibble_cases (f : BitVec 4) : f = 0x0 ∨ f = 0x1 ∨ f = 0x2 ∨ f = 0x3 ∨ f = 0x4 ∨ f = 0x5 ∨ f = 0x6 ∨ f = 0x7 ∨
    f = 0x8 ∨ f = 0x9 ∨ f = 0xA ∨ f = 0xB ∨ f = 0xC ∨ f = 0xD ∨ f = 0xE ∨ f = 0xF := by
  have h : ∀ n : Fin 16, BitVec.ofFin (w := 4) n = 0x0 ∨ BitVec.ofFin (w := 4) n = 0x1 ∨ BitVec.ofFin (w := 4) n = 0x2 ∨
      BitVec.ofFin (w := 4) n = 0x3 ∨ BitVec.ofFin (w := 4) n = 0x4 ∨ BitVec.ofFin (w := 4) n = 0x5 ∨
      BitVec.ofFin (w := 4) n = 0x6 ∨ BitVec.ofFin (w := 4) n = 0x7 ∨ BitVec.ofFin (w := 4) n = 0x8 ∨
      BitVec.ofFin (w := 4) n = 0x9 ∨ BitVec.ofFin (w := 4) n = 0xA ∨ BitVec.ofFin (w := 4) n = 0xB ∨
      BitVec.ofFin (w := 4) n = 0xC ∨ BitVec.ofFin (w := 4) n = 0xD ∨ BitVec.ofFin (w := 4) n = 0xE ∨
      BitVec.ofFin (w := 4) n = 0xF := by decide
  exact h f.toFin

section
variable {w : Word}

theorem decodeWord_family0 (h : fieldFamily w = 0x0) :
    decodeWord w = decodeFamily0 w := by
  simp [decodeWord, h]

theorem decodeWord_family1 (h : fieldFamily w = 0x1) :
    decodeWord w = .ok (.jp (fieldNNN w)) := by
  simp [decodeWord, h]

theorem decodeWord_family2 (h : fieldFamily w = 0x2) :
    decodeWord w = .ok (.call (fieldNNN w)) := by
  simp [decodeWord, h]

theorem decodeWord_family3 (h : fieldFamily w = 0x3) :
    decodeWord w = .ok (.seImm (fieldX w) (fieldNN w)) := by
  simp [decodeWord, h]

theorem decodeWord_family4 (h : fieldFamily w = 0x4) :
    decodeWord w = .ok (.sneImm (fieldX w) (fieldNN w)) := by
  simp [decodeWord, h]

theorem decodeWord_family5 (h : fieldFamily w = 0x5) :
    decodeWord w = if fieldN w = 0x0 then .ok (.seReg (fieldX w) (fieldY w)) else .error (.unrecognised w) := by
  simp [decodeWord, h]

theorem decodeWord_family6 (h : fieldFamily w = 0x6) :
    decodeWord w = .ok (.ldImm (fieldX w) (fieldNN w)) := by
  simp [decodeWord, h]

theorem decodeWord_family7 (h : fieldFamily w = 0x7) :
    decodeWord w = .ok (.addImm (fieldX w) (fieldNN w)) := by
  simp [decodeWord, h]

theorem decodeWord_family8 (h : fieldFamily w = 0x8) :
    decodeWord w = decodeFamily8 w (fieldX w) (fieldY w) (fieldN w) := by
  simp [decodeWord, h]

theorem decodeWord_family9 (h : fieldFamily w = 0x9) :
    decodeWord w = if fieldN w = 0x0 then .ok (.sneReg (fieldX w) (fieldY w)) else .error (.unrecognised w) := by
  simp [decodeWord, h]

theorem decodeWord_familyA (h : fieldFamily w = 0xA) :
    decodeWord w = .ok (.ldI (fieldNNN w)) := by
  simp [decodeWord, h]

theorem decodeWord_familyB (h : fieldFamily w = 0xB) :
    decodeWord w = .ok (.jpV0 (fieldNNN w)) := by
  simp [decodeWord, h]

theorem decodeWord_familyC (h : fieldFamily w = 0xC) :
    decodeWord w = .ok (.rnd (fieldX w) (fieldNN w)) := by
  simp [decodeWord, h]

theorem decodeWord_familyD (h : fieldFamily w = 0xD) :
    decodeWord w = .ok (.drw (fieldX w) (fieldY w) (fieldN w).toNat) := by
  simp [decodeWord, h]

theorem decodeWord_familyE (h : fieldFamily w = 0xE) :
    decodeWord w = decodeFamilyE w (fieldX w) (fieldNN w) := by
  simp [decodeWord, h]

theorem decodeWord_familyF (h : fieldFamily w = 0xF) :
    decodeWord w = decodeFamilyF w (fieldX w) (fieldNN w) := by
  simp [decodeWord, h]

end

end Sys2Proof
end

