-- ==== Sys2Proof/Laws/Draw.lean ====
section
/-! SUPPORT. What drawing does to a framebuffer, cell by cell, and when it reports a collision (R101, R102). -/

namespace Sys2Proof.Machine

theorem cellIndex_lt {row column : Nat} (h : row < 32 ∧ column < 64) : row * 64 + column < Config.fbCells :=
  show row * 64 + column < 2048 by omega

theorem cellAt_inside (fb : Framebuffer) {row column : Nat} (h : row < 32 ∧ column < 64) :
    cellAt fb row column = fb[row * 64 + column]'(cellIndex_lt h) := by
  simp [cellAt, h]

theorem cellAt_set (fb : Framebuffer) {r c row column : Nat} (b : Bool) (h : r < 32 ∧ c < 64)
    (h' : row < 32 ∧ column < 64) :
    cellAt (fb.set (r * 64 + c) b (cellIndex_lt h)) row column = if row = r ∧ column = c then b else cellAt fb row column := by
  rw [cellAt_inside _ h', cellAt_inside _ h', Vector.getElem_set]
  have : r * 64 + c = row * 64 + column ↔ row = r ∧ column = c := by omega
  simp [this]

/-- Framebuffers alike in every cell are equal. -/
theorem fb_ext {f g : Framebuffer} (h : ∀ row column, row < 32 → column < 64 → cellAt f row column = cellAt g row column) :
    f = g := by
  ext k hk
  have hk : k < 2048 := hk
  have := h (k / 64) (k % 64) (by omega) (by omega)
  rw [cellAt_inside _ (by omega), cellAt_inside _ (by omega)] at this
  have hd : k / 64 * 64 + k % 64 = k := by omega
  simpa [hd] using this

/-- One pixel. -/
theorem drawPixel_cell (ox oy r c : Nat) (bit : Bool) (p : Canvas) {row column : Nat} (hr : row < 32) (hc : column < 64) :
    cellAt (drawPixel ox oy r c bit p).1 row column =
      (cellAt p.1 row column ^^ (bit && decide (row = oy + r) && decide (column = ox + c))) := by
  unfold drawPixel
  split
  · rename_i h
    have h1 : oy + r < 32 ∧ ox + c < 64 := ⟨h.1, h.2.1⟩
    have := cellAt_set p.1 (!p.1[(oy + r) * 64 + (ox + c)]'(cellIndex_lt h1)) h1 ⟨hr, hc⟩
    simp only [Config.fbWidth] at *
    rw [this, h.2.2]
    by_cases he : row = oy + r ∧ column = ox + c
    · obtain ⟨rfl, rfl⟩ := he
      simp [cellAt_inside _ h1]
    · rw [if_neg he]
      rcases not_and_or.mp he with he | he <;> simp [he]
  · rename_i h
    by_cases hb : bit = true
    · by_cases he : row = oy + r ∧ column = ox + c
      · exact absurd ⟨he.1 ▸ hr, he.2 ▸ hc, hb⟩ h
      · rcases not_and_or.mp he with he | he <;> simp [he]
    · simp [hb]

theorem drawPixel_hit (ox oy r c : Nat) (bit : Bool) (p : Canvas) :
    (drawPixel ox oy r c bit p).2 = (p.2 || (bit && cellAt p.1 (oy + r) (ox + c))) := by
  unfold drawPixel
  split
  · rename_i h
    have h1 : oy + r < 32 ∧ ox + c < 64 := ⟨h.1, h.2.1⟩
    simp [cellAt_inside _ h1, h.2.2]
  · rename_i h
    by_cases hb : bit = true
    · have : ¬ (oy + r < 32 ∧ ox + c < 64) := fun hh => h ⟨hh.1, hh.2, hb⟩
      simp [cellAt, this]
    · simp [hb]

/-- Is `(row, column)` under a set bit of the first `cols` columns of row `r` of a sprite at `(ox, oy)`, whose byte is `b`? -/
def rowCovers (ox oy r : Nat) (b : Byte) (cols row column : Nat) : Bool :=
  decide (row = oy + r) && decide (ox ≤ column) && decide (column < ox + cols) && b.getLsbD (7 - (column - ox))

theorem drawRow_cell (ox oy r : Nat) (b : Byte) (p : Canvas) (cols : Nat) {row column : Nat} (hr : row < 32)
    (hc : column < 64) :
    cellAt (drawRow ox oy r b p cols).1 row column = (cellAt p.1 row column ^^ rowCovers ox oy r b cols row column) := by
  induction cols with
  | zero =>
    have : rowCovers ox oy r b 0 row column = false := by
      rw [← Bool.not_eq_true]; simp only [rowCovers, Bool.and_eq_true, decide_eq_true_eq]; omega
    simp [drawRow, this]
  | succ cols ih =>
    rw [drawRow, drawPixel_cell _ _ _ _ _ _ hr hc, ih, Bool.xor_assoc]
    congr 1
    unfold rowCovers
    by_cases h1 : row = oy + r
    · by_cases h2 : column = ox + cols
      · simp [h1, h2]
      · have : column < ox + (cols + 1) ↔ column < ox + cols := by omega
        simp [h1, h2, this]
    · simp [h1]

theorem drawRow_hit (ox oy r : Nat) (b : Byte) (p : Canvas) (cols : Nat) :
    (drawRow ox oy r b p cols).2 = true ↔ p.2 = true ∨ ∃ row column, row < 32 ∧ column < 64 ∧
      cellAt p.1 row column = true ∧ rowCovers ox oy r b cols row column = true := by
  induction cols with
  | zero =>
    simp only [drawRow, rowCovers]
    constructor
    · exact Or.inl
    · rintro (h | ⟨row, column, _, _, _, h⟩)
      · exact h
      · simp at h; omega
  | succ cols ih =>
    rw [drawRow, drawPixel_hit, Bool.or_eq_true, ih, or_assoc]
    apply or_congr_right
    constructor
    · rintro (⟨row, column, hr, hc, hcell, hcov⟩ | h)
      · refine ⟨row, column, hr, hc, hcell, ?_⟩
        simp only [rowCovers, Bool.and_eq_true, decide_eq_true_eq] at hcov ⊢
        exact ⟨⟨hcov.1.1, by omega⟩, hcov.2⟩
      · simp only [Bool.and_eq_true] at h
        obtain ⟨hbit, hcell⟩ := h
        have hin : oy + r < 32 ∧ ox + cols < 64 := by
          by_contra hno; simp [cellAt, hno] at hcell
        rw [drawRow_cell _ _ _ _ _ _ hin.1 hin.2] at hcell
        refine ⟨oy + r, ox + cols, hin.1, hin.2, ?_, ?_⟩
        · simpa [rowCovers] using hcell
        · simp [rowCovers, hbit]
    · rintro ⟨row, column, hr, hc, hcell, hcov⟩
      simp only [rowCovers, Bool.and_eq_true, decide_eq_true_eq] at hcov
      by_cases h : column = ox + cols
      · right
        have hrow := hcov.1.1.1
        subst h; subst hrow
        rw [drawRow_cell _ _ _ _ _ _ hr hc]
        simp [rowCovers, hcell]
        simpa using hcov.2
      · left
        refine ⟨row, column, hr, hc, hcell, ?_⟩
        simp only [rowCovers, Bool.and_eq_true, decide_eq_true_eq]
        exact ⟨⟨hcov.1.1, by omega⟩, hcov.2⟩

/-- The whole sprite: a cell is toggled exactly when a set bit falls on it. -/
theorem drawRows_cell (m : Memory) (base ox oy : Nat) (p : Canvas) (n : Nat) {row column : Nat} (hr : row < 32)
    (hc : column < 64) :
    cellAt (drawRows m base ox oy p n).1 row column =
      (cellAt p.1 row column ^^ coveredBy m base ox oy n row column) := by
  induction n with
  | zero =>
    have : coveredBy m base ox oy 0 row column = false := by
      rw [← Bool.not_eq_true]; simp only [coveredBy, Bool.and_eq_true, decide_eq_true_eq]; omega
    simp [drawRows, this]
  | succ n ih =>
    rw [drawRows, drawRow_cell _ _ _ _ _ _ hr hc, ih, Bool.xor_assoc]
    congr 1
    unfold rowCovers coveredBy
    by_cases h : row = oy + n
    · have h3 : row - oy = n := by omega
      subst h
      simp [h3]
    · have : row < oy + (n + 1) ↔ row < oy + n := by omega
      simp [h, this]

/-- The collision: a set bit fell on a lit cell. -/
theorem drawRows_hit (m : Memory) (base ox oy : Nat) (p : Canvas) (n : Nat) :
    (drawRows m base ox oy p n).2 = true ↔ p.2 = true ∨ ∃ row column, row < 32 ∧ column < 64 ∧
      cellAt p.1 row column = true ∧ coveredBy m base ox oy n row column = true := by
  induction n with
  | zero =>
    simp only [drawRows, coveredBy]
    constructor
    · exact Or.inl
    · rintro (h | ⟨row, column, _, _, _, h⟩)
      · exact h
      · simp at h; omega
  | succ n ih =>
    rw [drawRows, drawRow_hit, ih, or_assoc]
    apply or_congr_right
    constructor
    · rintro (⟨row, column, hr, hc, hcell, hcov⟩ | ⟨row, column, hr, hc, hcell, hcov⟩)
      · refine ⟨row, column, hr, hc, hcell, ?_⟩
        simp only [coveredBy, Bool.and_eq_true, decide_eq_true_eq] at hcov ⊢
        exact ⟨⟨⟨⟨hcov.1.1.1.1, by omega⟩, hcov.1.1.2⟩, hcov.1.2⟩, hcov.2⟩
      · refine ⟨row, column, hr, hc, ?_, ?_⟩
        · rw [drawRows_cell _ _ _ _ _ _ hr hc] at hcell
          simp only [rowCovers, Bool.and_eq_true, decide_eq_true_eq] at hcov
          have : coveredBy m base ox oy n row column = false := by
            simp only [coveredBy, Bool.and_eq_false_iff, decide_eq_false_iff_not]; left; left; left; right; omega
          simpa [this] using hcell
        · simp only [rowCovers, coveredBy, Bool.and_eq_true, decide_eq_true_eq] at hcov ⊢
          have : row - oy = n := by omega
          rw [this]
          exact ⟨⟨⟨⟨by omega, by omega⟩, hcov.1.1.2⟩, hcov.1.2⟩, hcov.2⟩
    · rintro ⟨row, column, hr, hc, hcell, hcov⟩
      simp only [coveredBy, Bool.and_eq_true, decide_eq_true_eq] at hcov
      by_cases h : row = oy + n
      · right
        refine ⟨row, column, hr, hc, ?_, ?_⟩
        · rw [drawRows_cell _ _ _ _ _ _ hr hc]
          have : coveredBy m base ox oy n row column = false := by
            simp only [coveredBy, Bool.and_eq_false_iff, decide_eq_false_iff_not]; left; left; left; right; omega
          simpa [this] using hcell
        · have : row - oy = n := by omega
          rw [this] at hcov
          simp only [rowCovers, Bool.and_eq_true, decide_eq_true_eq]
          exact ⟨⟨⟨h, hcov.1.1.2⟩, hcov.1.2⟩, hcov.2⟩
      · left
        refine ⟨row, column, hr, hc, hcell, ?_⟩
        simp only [coveredBy, Bool.and_eq_true, decide_eq_true_eq]
        exact ⟨⟨⟨⟨hcov.1.1.1.1, by omega⟩, hcov.1.1.2⟩, hcov.1.2⟩, hcov.2⟩

end Sys2Proof.Machine
end

