-- ==== Sys2Proof/Laws/Memory.lean ====
section
/-! SUPPORT. The laws of memory: reading after writing, and that every operation keeps the canonical form. -/

namespace Sys2Proof.Machine

namespace Memory

/-! ## Reading after writing (R55) -/

@[simp] theorem read_nil (a : Nat) : read [] a = 0x00 := rfl

theorem read_cons (c : Host.Cell) (m : Memory) (a : Nat) :
    read (c :: m) a = if c.1 = a then c.2 else read m a := rfl

theorem read_erase_same (m : Memory) (a : Nat) : (m.erase a).read a = 0x00 := by
  induction m with
  | nil => rfl
  | cons c m ih =>
    by_cases h : c.1 = a <;> simp_all [erase, read_cons]

theorem read_erase_other (m : Memory) {a k : Nat} (h : k ≠ a) : (m.erase a).read k = m.read k := by
  induction m with
  | nil => rfl
  | cons c m ih =>
    by_cases hc : c.1 = a
    · have : c.1 ≠ k := fun hk => h (hk.symm.trans hc)
      simp_all [erase, read_cons]
    · simp_all [erase, read_cons]

theorem erase_no_cell (m : Memory) (a : Nat) : ∀ c ∈ m.erase a, c.1 ≠ a := by
  simp [erase]

theorem read_insert_same (m : Memory) (a : Nat) (b : Byte) (h : ∀ c ∈ m, c.1 ≠ a) : (m.insert a b).read a = b := by
  induction m with
  | nil => simp [insert, read_cons]
  | cons c m ih =>
    have hc : c.1 ≠ a := h c (by simp)
    have hm := ih fun d hd => h d (by simp [hd])
    by_cases hlt : a < c.1 <;> simp [insert, hlt, read_cons, hc, hm]

theorem read_insert_other (m : Memory) {a k : Nat} (b : Byte) (h : k ≠ a) : (m.insert a b).read k = m.read k := by
  induction m with
  | nil => simp [insert, read_cons, h.symm]
  | cons c m ih =>
    by_cases hlt : a < c.1 <;> simp [insert, hlt, read_cons, h.symm, ih]

/-- A read returns the last byte written to that address. -/
@[simp] theorem read_write_same (m : Memory) (a : Nat) (b : Byte) : (m.write a b).read a = b := by
  by_cases hb : b = 0x00
  · simp only [write, hb, if_true]; exact read_erase_same m a
  · simp only [write, if_neg hb]; exact read_insert_same _ a b (erase_no_cell m a)

/-- A write leaves every other address alone. -/
theorem read_write_other (m : Memory) {a k : Nat} (b : Byte) (h : k ≠ a) : (m.write a b).read k = m.read k := by
  by_cases hb : b = 0x00
  · simp only [write, hb, if_true]; exact read_erase_other m h
  · simp only [write, if_neg hb]; rw [read_insert_other _ b h, read_erase_other m h]

theorem read_write (m : Memory) (a k : Nat) (b : Byte) : (m.write a b).read k = if k = a then b else m.read k := by
  by_cases h : k = a
  · simp [h]
  · simp [h, read_write_other]

/-- What `writeBytes` leaves at every address: inside the written range the byte for it, outside what was there. -/
theorem read_writeBytes (m : Memory) (a k : Nat) (bs : List Byte) :
    (m.writeBytes a bs).read k = if a ≤ k then bs[k - a]?.getD (m.read k) else m.read k := by
  induction bs generalizing m a with
  | nil => simp [writeBytes]
  | cons b bs ih =>
    rw [writeBytes, ih, read_write]
    rcases Nat.lt_trichotomy k a with h | h | h
    · simp [show ¬ a + 1 ≤ k by omega, show ¬ a ≤ k by omega, show k ≠ a by omega]
    · subst h; simp
    · have hk : k - a = (k - (a + 1)) + 1 := by omega
      simp [show a + 1 ≤ k by omega, show a ≤ k by omega, show k ≠ a by omega, hk]

theorem read_writeBytes_outside (m : Memory) {a k : Nat} (bs : List Byte) (h : k < a ∨ a + bs.length ≤ k) :
    (m.writeBytes a bs).read k = m.read k := by
  rw [read_writeBytes]
  rcases h with h | h
  · simp [show ¬ a ≤ k by omega]
  · simp [List.getElem?_eq_none (show bs.length ≤ k - a by omega)]

theorem read_writeBytes_inside (m : Memory) (a : Nat) (bs : List Byte) {j : Nat} (h : j < bs.length) :
    (m.writeBytes a bs).read (a + j) = bs[j] := by
  simp [read_writeBytes, h]

/-! ## The canonical form -/

theorem wfFrom_mono {lo hi : Nat} {m : Memory} (hle : lo ≤ hi) (h : wfFrom hi m = true) : wfFrom lo m = true := by
  cases m with
  | nil => rfl
  | cons c m =>
    simp only [wfFrom, Bool.and_eq_true, decide_eq_true_eq] at h ⊢
    exact ⟨⟨⟨by omega, h.1.1.2⟩, h.1.2⟩, h.2⟩

theorem wfFrom_erase (m : Memory) (lo a : Nat) (h : wfFrom lo m = true) : wfFrom lo (m.erase a) = true := by
  induction m generalizing lo with
  | nil => rfl
  | cons c m ih =>
    simp only [wfFrom, Bool.and_eq_true, decide_eq_true_eq] at h
    by_cases hc : c.1 = a
    · have := wfFrom_mono (show lo ≤ c.1 + 1 by omega) (ih _ h.2)
      simpa [erase, hc] using this
    · have := ih _ h.2
      simp_all [erase, wfFrom]

theorem wfFrom_insert (m : Memory) (lo a : Nat) (b : Byte) (h : wfFrom lo m = true) (hlo : lo ≤ a)
    (ha : a < Config.memSize) (hb : b ≠ 0x00) (hno : ∀ c ∈ m, c.1 ≠ a) : wfFrom lo (m.insert a b) = true := by
  induction m generalizing lo with
  | nil => simp_all [insert, wfFrom]
  | cons c m ih =>
    have hc : c.1 ≠ a := hno c (by simp)
    simp only [wfFrom, Bool.and_eq_true, decide_eq_true_eq] at h
    by_cases hlt : a < c.1
    · simp only [insert, if_pos hlt, wfFrom, Bool.and_eq_true, decide_eq_true_eq]
      exact ⟨⟨⟨hlo, ha⟩, hb⟩, ⟨⟨by omega, h.1.1.2⟩, h.1.2⟩, h.2⟩
    · have := ih (c.1 + 1) h.2 (by omega) fun d hd => hno d (by simp [hd])
      simp only [insert, if_neg hlt, wfFrom, Bool.and_eq_true, decide_eq_true_eq]
      exact ⟨h.1, this⟩

/-- A write inside memory keeps the canonical form. -/
theorem wf_write (m : Memory) (a : Nat) (b : Byte) (h : m.wf = true) (ha : a < Config.memSize) :
    (m.write a b).wf = true := by
  unfold wf at *
  by_cases hb : b = 0x00
  · simp only [write, hb, if_true]; exact wfFrom_erase m 0 a h
  · simp only [write, if_neg hb]
    exact wfFrom_insert _ 0 a b (wfFrom_erase m 0 a h) (Nat.zero_le a) ha hb (erase_no_cell m a)

/-- So does a run of bytes that ends inside memory. -/
theorem wf_writeBytes (m : Memory) (a : Nat) (bs : List Byte) (h : m.wf = true)
    (ha : a + bs.length ≤ Config.memSize) : (m.writeBytes a bs).wf = true := by
  induction bs generalizing m a with
  | nil => exact h
  | cons b bs ih =>
    simp only [List.length_cons] at ha
    exact ih _ _ (wf_write m a b h (by omega)) (by omega)

theorem wf_writeOpcode (m : Memory) (a : Nat) (op : Word) (h : m.wf = true) (ha : a ≤ Config.lastFetchAddress) :
    (m.writeOpcode a op).wf = true :=
  wf_writeBytes m a _ h (by simp only [Config.lastFetchAddress, Config.memSize, List.length_cons, List.length_nil] at *; omega)

theorem reset_wf : State.reset.mem.wf = true := rfl

theorem read_below (m : Memory) (lo a : Nat) (h : wfFrom lo m = true) (ha : a < lo) : m.read a = 0x00 := by
  induction m generalizing lo with
  | nil => rfl
  | cons c m ih =>
    simp only [wfFrom, Bool.and_eq_true, decide_eq_true_eq] at h
    rw [read_cons, if_neg (by omega)]
    exact ih _ h.2 (by omega)

/-- Canonical memories that read alike are the same list. -/
theorem eq_of_read_eq {m k : Memory} (lo : Nat) (hm : wfFrom lo m = true) (hk : wfFrom lo k = true)
    (h : ∀ a, m.read a = k.read a) : m = k := by
  induction m generalizing lo k with
  | nil =>
    cases k with
    | nil => rfl
    | cons d k =>
      simp only [wfFrom, Bool.and_eq_true, decide_eq_true_eq] at hk
      exact absurd (by simpa [read_cons] using (h d.1).symm) hk.1.2
  | cons c m ih =>
    simp only [wfFrom, Bool.and_eq_true, decide_eq_true_eq] at hm
    cases k with
    | nil => exact absurd (by simpa [read_cons] using h c.1) hm.1.2
    | cons d k =>
      simp only [wfFrom, Bool.and_eq_true, decide_eq_true_eq] at hk
      have hcd : c.1 = d.1 := by
        rcases Nat.lt_trichotomy c.1 d.1 with hlt | heq | hlt
        · have := h c.1
          rw [read_cons, if_pos rfl, read_cons, if_neg (by omega), read_below k _ _ hk.2 (by omega)] at this
          exact absurd this hm.1.2
        · exact heq
        · have := h d.1
          rw [read_cons, if_neg (by omega), read_cons, if_pos rfl, read_below m _ _ hm.2 (by omega)] at this
          exact absurd this.symm hk.1.2
      have hbyte : c.2 = d.2 := by simpa [read_cons, hcd] using h c.1
      have htail : m = k := by
        refine ih (c.1 + 1) hm.2 (hcd ▸ hk.2) fun a => ?_
        by_cases ha : c.1 = a
        · subst ha
          rw [read_below m _ _ hm.2 (by omega), read_below k _ _ hk.2 (by omega)]
        · simpa [read_cons, ha, hcd ▸ ha] using h a
      rw [htail, Prod.ext hcd hbyte]

end Memory

end Sys2Proof.Machine
end

