-- ==== Sys2Proof/Laws/State.lean ====
section
/-! SUPPORT. One lemma per field per update of State, each true by rfl, so that no proof unfolds a record update. -/

namespace Sys2Proof.Machine

/-! ## The named numbers of R7 and the types that hold them -/

/-- The types of the state's elements have the widths that R7 names. -/
theorem widths_as_named : Byte = BitVec Config.regWidth ∧ Byte = BitVec Config.timerWidth ∧ Word = BitVec Config.pcWidth ∧
    Word = BitVec Config.iWidth ∧ Word = BitVec Config.stackEntryWidth ∧ Word = BitVec Config.opcodeWidth ∧
    Word = BitVec Config.keyCount := ⟨rfl, rfl, rfl, rfl, rfl, rfl, rfl⟩

theorem fbCells_eq : Config.fbCells = Config.fbWidth * Config.fbHeight := rfl

/-- A fetch is two bytes long (R91). -/
theorem lastFetchAddress_eq : Config.lastFetchAddress = Config.memSize - 2 := rfl

variable (s : State)

/-- The depth counter likewise. -/
theorem State.sp_le : s.sp.val ≤ 16 := Nat.le_of_lt_succ s.sp.isLt

/-! `setPc` -/

@[simp] theorem State.setPc_mem (w : Word) : (s.setPc w).mem = s.mem := rfl
@[simp] theorem State.setPc_pc (w : Word) : (s.setPc w).pc = w := rfl
@[simp] theorem State.setPc_I (w : Word) : (s.setPc w).I = s.I := rfl
@[simp] theorem State.setPc_stack (w : Word) : (s.setPc w).stack = s.stack := rfl
@[simp] theorem State.setPc_sp (w : Word) : (s.setPc w).sp = s.sp := rfl
@[simp] theorem State.setPc_DT (w : Word) : (s.setPc w).DT = s.DT := rfl
@[simp] theorem State.setPc_ST (w : Word) : (s.setPc w).ST = s.ST := rfl
@[simp] theorem State.setPc_V (w : Word) : (s.setPc w).V = s.V := rfl
@[simp] theorem State.setPc_fb (w : Word) : (s.setPc w).fb = s.fb := rfl
@[simp] theorem State.setPc_prevKeys (w : Word) : (s.setPc w).prevKeys = s.prevKeys := rfl
@[simp] theorem State.setPc_rng (w : Word) : (s.setPc w).rng = s.rng := rfl
@[simp] theorem State.setPc_fault (w : Word) : (s.setPc w).fault = s.fault := rfl
@[simp] theorem State.setPc_host (w : Word) : (s.setPc w).host = s.host := rfl

/-! `setReg` -/

@[simp] theorem State.setReg_mem (r : RegIdx) (b : Byte) : (s.setReg r b).mem = s.mem := rfl
@[simp] theorem State.setReg_pc (r : RegIdx) (b : Byte) : (s.setReg r b).pc = s.pc := rfl
@[simp] theorem State.setReg_I (r : RegIdx) (b : Byte) : (s.setReg r b).I = s.I := rfl
@[simp] theorem State.setReg_stack (r : RegIdx) (b : Byte) : (s.setReg r b).stack = s.stack := rfl
@[simp] theorem State.setReg_sp (r : RegIdx) (b : Byte) : (s.setReg r b).sp = s.sp := rfl
@[simp] theorem State.setReg_DT (r : RegIdx) (b : Byte) : (s.setReg r b).DT = s.DT := rfl
@[simp] theorem State.setReg_ST (r : RegIdx) (b : Byte) : (s.setReg r b).ST = s.ST := rfl
@[simp] theorem State.setReg_V (r : RegIdx) (b : Byte) : (s.setReg r b).V = s.V.set r.val b := rfl
@[simp] theorem State.setReg_fb (r : RegIdx) (b : Byte) : (s.setReg r b).fb = s.fb := rfl
@[simp] theorem State.setReg_prevKeys (r : RegIdx) (b : Byte) : (s.setReg r b).prevKeys = s.prevKeys := rfl
@[simp] theorem State.setReg_rng (r : RegIdx) (b : Byte) : (s.setReg r b).rng = s.rng := rfl
@[simp] theorem State.setReg_fault (r : RegIdx) (b : Byte) : (s.setReg r b).fault = s.fault := rfl
@[simp] theorem State.setReg_host (r : RegIdx) (b : Byte) : (s.setReg r b).host = s.host := rfl

/-! `setI` -/

@[simp] theorem State.setI_mem (w : Word) : (s.setI w).mem = s.mem := rfl
@[simp] theorem State.setI_pc (w : Word) : (s.setI w).pc = s.pc := rfl
@[simp] theorem State.setI_I (w : Word) : (s.setI w).I = w := rfl
@[simp] theorem State.setI_stack (w : Word) : (s.setI w).stack = s.stack := rfl
@[simp] theorem State.setI_sp (w : Word) : (s.setI w).sp = s.sp := rfl
@[simp] theorem State.setI_DT (w : Word) : (s.setI w).DT = s.DT := rfl
@[simp] theorem State.setI_ST (w : Word) : (s.setI w).ST = s.ST := rfl
@[simp] theorem State.setI_V (w : Word) : (s.setI w).V = s.V := rfl
@[simp] theorem State.setI_fb (w : Word) : (s.setI w).fb = s.fb := rfl
@[simp] theorem State.setI_prevKeys (w : Word) : (s.setI w).prevKeys = s.prevKeys := rfl
@[simp] theorem State.setI_rng (w : Word) : (s.setI w).rng = s.rng := rfl
@[simp] theorem State.setI_fault (w : Word) : (s.setI w).fault = s.fault := rfl
@[simp] theorem State.setI_host (w : Word) : (s.setI w).host = s.host := rfl

/-! `setMem` -/

@[simp] theorem State.setMem_mem (m : Memory) : (s.setMem m).mem = m := rfl
@[simp] theorem State.setMem_pc (m : Memory) : (s.setMem m).pc = s.pc := rfl
@[simp] theorem State.setMem_I (m : Memory) : (s.setMem m).I = s.I := rfl
@[simp] theorem State.setMem_stack (m : Memory) : (s.setMem m).stack = s.stack := rfl
@[simp] theorem State.setMem_sp (m : Memory) : (s.setMem m).sp = s.sp := rfl
@[simp] theorem State.setMem_DT (m : Memory) : (s.setMem m).DT = s.DT := rfl
@[simp] theorem State.setMem_ST (m : Memory) : (s.setMem m).ST = s.ST := rfl
@[simp] theorem State.setMem_V (m : Memory) : (s.setMem m).V = s.V := rfl
@[simp] theorem State.setMem_fb (m : Memory) : (s.setMem m).fb = s.fb := rfl
@[simp] theorem State.setMem_prevKeys (m : Memory) : (s.setMem m).prevKeys = s.prevKeys := rfl
@[simp] theorem State.setMem_rng (m : Memory) : (s.setMem m).rng = s.rng := rfl
@[simp] theorem State.setMem_fault (m : Memory) : (s.setMem m).fault = s.fault := rfl
@[simp] theorem State.setMem_host (m : Memory) : (s.setMem m).host = s.host := rfl

/-! `setRegs` -/

@[simp] theorem State.setRegs_mem (v : Registers) : (s.setRegs v).mem = s.mem := rfl
@[simp] theorem State.setRegs_pc (v : Registers) : (s.setRegs v).pc = s.pc := rfl
@[simp] theorem State.setRegs_I (v : Registers) : (s.setRegs v).I = s.I := rfl
@[simp] theorem State.setRegs_stack (v : Registers) : (s.setRegs v).stack = s.stack := rfl
@[simp] theorem State.setRegs_sp (v : Registers) : (s.setRegs v).sp = s.sp := rfl
@[simp] theorem State.setRegs_DT (v : Registers) : (s.setRegs v).DT = s.DT := rfl
@[simp] theorem State.setRegs_ST (v : Registers) : (s.setRegs v).ST = s.ST := rfl
@[simp] theorem State.setRegs_V (v : Registers) : (s.setRegs v).V = v := rfl
@[simp] theorem State.setRegs_fb (v : Registers) : (s.setRegs v).fb = s.fb := rfl
@[simp] theorem State.setRegs_prevKeys (v : Registers) : (s.setRegs v).prevKeys = s.prevKeys := rfl
@[simp] theorem State.setRegs_rng (v : Registers) : (s.setRegs v).rng = s.rng := rfl
@[simp] theorem State.setRegs_fault (v : Registers) : (s.setRegs v).fault = s.fault := rfl
@[simp] theorem State.setRegs_host (v : Registers) : (s.setRegs v).host = s.host := rfl

/-! `setFb` -/

@[simp] theorem State.setFb_mem (f : Framebuffer) : (s.setFb f).mem = s.mem := rfl
@[simp] theorem State.setFb_pc (f : Framebuffer) : (s.setFb f).pc = s.pc := rfl
@[simp] theorem State.setFb_I (f : Framebuffer) : (s.setFb f).I = s.I := rfl
@[simp] theorem State.setFb_stack (f : Framebuffer) : (s.setFb f).stack = s.stack := rfl
@[simp] theorem State.setFb_sp (f : Framebuffer) : (s.setFb f).sp = s.sp := rfl
@[simp] theorem State.setFb_DT (f : Framebuffer) : (s.setFb f).DT = s.DT := rfl
@[simp] theorem State.setFb_ST (f : Framebuffer) : (s.setFb f).ST = s.ST := rfl
@[simp] theorem State.setFb_V (f : Framebuffer) : (s.setFb f).V = s.V := rfl
@[simp] theorem State.setFb_fb (f : Framebuffer) : (s.setFb f).fb = f := rfl
@[simp] theorem State.setFb_prevKeys (f : Framebuffer) : (s.setFb f).prevKeys = s.prevKeys := rfl
@[simp] theorem State.setFb_rng (f : Framebuffer) : (s.setFb f).rng = s.rng := rfl
@[simp] theorem State.setFb_fault (f : Framebuffer) : (s.setFb f).fault = s.fault := rfl
@[simp] theorem State.setFb_host (f : Framebuffer) : (s.setFb f).host = s.host := rfl

/-! `setDT` -/

@[simp] theorem State.setDT_mem (b : Byte) : (s.setDT b).mem = s.mem := rfl
@[simp] theorem State.setDT_pc (b : Byte) : (s.setDT b).pc = s.pc := rfl
@[simp] theorem State.setDT_I (b : Byte) : (s.setDT b).I = s.I := rfl
@[simp] theorem State.setDT_stack (b : Byte) : (s.setDT b).stack = s.stack := rfl
@[simp] theorem State.setDT_sp (b : Byte) : (s.setDT b).sp = s.sp := rfl
@[simp] theorem State.setDT_DT (b : Byte) : (s.setDT b).DT = b := rfl
@[simp] theorem State.setDT_ST (b : Byte) : (s.setDT b).ST = s.ST := rfl
@[simp] theorem State.setDT_V (b : Byte) : (s.setDT b).V = s.V := rfl
@[simp] theorem State.setDT_fb (b : Byte) : (s.setDT b).fb = s.fb := rfl
@[simp] theorem State.setDT_prevKeys (b : Byte) : (s.setDT b).prevKeys = s.prevKeys := rfl
@[simp] theorem State.setDT_rng (b : Byte) : (s.setDT b).rng = s.rng := rfl
@[simp] theorem State.setDT_fault (b : Byte) : (s.setDT b).fault = s.fault := rfl
@[simp] theorem State.setDT_host (b : Byte) : (s.setDT b).host = s.host := rfl

/-! `setST` -/

@[simp] theorem State.setST_mem (b : Byte) : (s.setST b).mem = s.mem := rfl
@[simp] theorem State.setST_pc (b : Byte) : (s.setST b).pc = s.pc := rfl
@[simp] theorem State.setST_I (b : Byte) : (s.setST b).I = s.I := rfl
@[simp] theorem State.setST_stack (b : Byte) : (s.setST b).stack = s.stack := rfl
@[simp] theorem State.setST_sp (b : Byte) : (s.setST b).sp = s.sp := rfl
@[simp] theorem State.setST_DT (b : Byte) : (s.setST b).DT = s.DT := rfl
@[simp] theorem State.setST_ST (b : Byte) : (s.setST b).ST = b := rfl
@[simp] theorem State.setST_V (b : Byte) : (s.setST b).V = s.V := rfl
@[simp] theorem State.setST_fb (b : Byte) : (s.setST b).fb = s.fb := rfl
@[simp] theorem State.setST_prevKeys (b : Byte) : (s.setST b).prevKeys = s.prevKeys := rfl
@[simp] theorem State.setST_rng (b : Byte) : (s.setST b).rng = s.rng := rfl
@[simp] theorem State.setST_fault (b : Byte) : (s.setST b).fault = s.fault := rfl
@[simp] theorem State.setST_host (b : Byte) : (s.setST b).host = s.host := rfl

/-! `setRng` -/

@[simp] theorem State.setRng_mem (n : Nat) : (s.setRng n).mem = s.mem := rfl
@[simp] theorem State.setRng_pc (n : Nat) : (s.setRng n).pc = s.pc := rfl
@[simp] theorem State.setRng_I (n : Nat) : (s.setRng n).I = s.I := rfl
@[simp] theorem State.setRng_stack (n : Nat) : (s.setRng n).stack = s.stack := rfl
@[simp] theorem State.setRng_sp (n : Nat) : (s.setRng n).sp = s.sp := rfl
@[simp] theorem State.setRng_DT (n : Nat) : (s.setRng n).DT = s.DT := rfl
@[simp] theorem State.setRng_ST (n : Nat) : (s.setRng n).ST = s.ST := rfl
@[simp] theorem State.setRng_V (n : Nat) : (s.setRng n).V = s.V := rfl
@[simp] theorem State.setRng_fb (n : Nat) : (s.setRng n).fb = s.fb := rfl
@[simp] theorem State.setRng_prevKeys (n : Nat) : (s.setRng n).prevKeys = s.prevKeys := rfl
@[simp] theorem State.setRng_rng (n : Nat) : (s.setRng n).rng = n := rfl
@[simp] theorem State.setRng_fault (n : Nat) : (s.setRng n).fault = s.fault := rfl
@[simp] theorem State.setRng_host (n : Nat) : (s.setRng n).host = s.host := rfl

/-! `setPrevKeys` -/

@[simp] theorem State.setPrevKeys_mem (k : Word) : (s.setPrevKeys k).mem = s.mem := rfl
@[simp] theorem State.setPrevKeys_pc (k : Word) : (s.setPrevKeys k).pc = s.pc := rfl
@[simp] theorem State.setPrevKeys_I (k : Word) : (s.setPrevKeys k).I = s.I := rfl
@[simp] theorem State.setPrevKeys_stack (k : Word) : (s.setPrevKeys k).stack = s.stack := rfl
@[simp] theorem State.setPrevKeys_sp (k : Word) : (s.setPrevKeys k).sp = s.sp := rfl
@[simp] theorem State.setPrevKeys_DT (k : Word) : (s.setPrevKeys k).DT = s.DT := rfl
@[simp] theorem State.setPrevKeys_ST (k : Word) : (s.setPrevKeys k).ST = s.ST := rfl
@[simp] theorem State.setPrevKeys_V (k : Word) : (s.setPrevKeys k).V = s.V := rfl
@[simp] theorem State.setPrevKeys_fb (k : Word) : (s.setPrevKeys k).fb = s.fb := rfl
@[simp] theorem State.setPrevKeys_prevKeys (k : Word) : (s.setPrevKeys k).prevKeys = k := rfl
@[simp] theorem State.setPrevKeys_rng (k : Word) : (s.setPrevKeys k).rng = s.rng := rfl
@[simp] theorem State.setPrevKeys_fault (k : Word) : (s.setPrevKeys k).fault = s.fault := rfl
@[simp] theorem State.setPrevKeys_host (k : Word) : (s.setPrevKeys k).host = s.host := rfl

/-! `setCalls` -/

@[simp] theorem State.setCalls_mem (k : CallStack) (d : Depth) : (s.setCalls k d).mem = s.mem := rfl
@[simp] theorem State.setCalls_pc (k : CallStack) (d : Depth) : (s.setCalls k d).pc = s.pc := rfl
@[simp] theorem State.setCalls_I (k : CallStack) (d : Depth) : (s.setCalls k d).I = s.I := rfl
@[simp] theorem State.setCalls_stack (k : CallStack) (d : Depth) : (s.setCalls k d).stack = k := rfl
@[simp] theorem State.setCalls_sp (k : CallStack) (d : Depth) : (s.setCalls k d).sp = d := rfl
@[simp] theorem State.setCalls_DT (k : CallStack) (d : Depth) : (s.setCalls k d).DT = s.DT := rfl
@[simp] theorem State.setCalls_ST (k : CallStack) (d : Depth) : (s.setCalls k d).ST = s.ST := rfl
@[simp] theorem State.setCalls_V (k : CallStack) (d : Depth) : (s.setCalls k d).V = s.V := rfl
@[simp] theorem State.setCalls_fb (k : CallStack) (d : Depth) : (s.setCalls k d).fb = s.fb := rfl
@[simp] theorem State.setCalls_prevKeys (k : CallStack) (d : Depth) : (s.setCalls k d).prevKeys = s.prevKeys := rfl
@[simp] theorem State.setCalls_rng (k : CallStack) (d : Depth) : (s.setCalls k d).rng = s.rng := rfl
@[simp] theorem State.setCalls_fault (k : CallStack) (d : Depth) : (s.setCalls k d).fault = s.fault := rfl
@[simp] theorem State.setCalls_host (k : CallStack) (d : Depth) : (s.setCalls k d).host = s.host := rfl

/-! `setHost` -/

@[simp] theorem State.setHost_mem (h : HostPort) : (s.setHost h).mem = s.mem := rfl
@[simp] theorem State.setHost_pc (h : HostPort) : (s.setHost h).pc = s.pc := rfl
@[simp] theorem State.setHost_I (h : HostPort) : (s.setHost h).I = s.I := rfl
@[simp] theorem State.setHost_stack (h : HostPort) : (s.setHost h).stack = s.stack := rfl
@[simp] theorem State.setHost_sp (h : HostPort) : (s.setHost h).sp = s.sp := rfl
@[simp] theorem State.setHost_DT (h : HostPort) : (s.setHost h).DT = s.DT := rfl
@[simp] theorem State.setHost_ST (h : HostPort) : (s.setHost h).ST = s.ST := rfl
@[simp] theorem State.setHost_V (h : HostPort) : (s.setHost h).V = s.V := rfl
@[simp] theorem State.setHost_fb (h : HostPort) : (s.setHost h).fb = s.fb := rfl
@[simp] theorem State.setHost_prevKeys (h : HostPort) : (s.setHost h).prevKeys = s.prevKeys := rfl
@[simp] theorem State.setHost_rng (h : HostPort) : (s.setHost h).rng = s.rng := rfl
@[simp] theorem State.setHost_fault (h : HostPort) : (s.setHost h).fault = s.fault := rfl
@[simp] theorem State.setHost_host (h : HostPort) : (s.setHost h).host = h := rfl

/-! `setFault` -/

@[simp] theorem State.setFault_mem (f : Option FaultRecord) : (s.setFault f).mem = s.mem := rfl
@[simp] theorem State.setFault_pc (f : Option FaultRecord) : (s.setFault f).pc = s.pc := rfl
@[simp] theorem State.setFault_I (f : Option FaultRecord) : (s.setFault f).I = s.I := rfl
@[simp] theorem State.setFault_stack (f : Option FaultRecord) : (s.setFault f).stack = s.stack := rfl
@[simp] theorem State.setFault_sp (f : Option FaultRecord) : (s.setFault f).sp = s.sp := rfl
@[simp] theorem State.setFault_DT (f : Option FaultRecord) : (s.setFault f).DT = s.DT := rfl
@[simp] theorem State.setFault_ST (f : Option FaultRecord) : (s.setFault f).ST = s.ST := rfl
@[simp] theorem State.setFault_V (f : Option FaultRecord) : (s.setFault f).V = s.V := rfl
@[simp] theorem State.setFault_fb (f : Option FaultRecord) : (s.setFault f).fb = s.fb := rfl
@[simp] theorem State.setFault_prevKeys (f : Option FaultRecord) : (s.setFault f).prevKeys = s.prevKeys := rfl
@[simp] theorem State.setFault_rng (f : Option FaultRecord) : (s.setFault f).rng = s.rng := rfl
@[simp] theorem State.setFault_fault (f : Option FaultRecord) : (s.setFault f).fault = f := rfl
@[simp] theorem State.setFault_host (f : Option FaultRecord) : (s.setFault f).host = s.host := rfl

/-! `advance` -/

@[simp] theorem State.advance_mem : s.advance.mem = s.mem := rfl
@[simp] theorem State.advance_pc : s.advance.pc = s.pc + 2 := rfl
@[simp] theorem State.advance_I : s.advance.I = s.I := rfl
@[simp] theorem State.advance_stack : s.advance.stack = s.stack := rfl
@[simp] theorem State.advance_sp : s.advance.sp = s.sp := rfl
@[simp] theorem State.advance_DT : s.advance.DT = s.DT := rfl
@[simp] theorem State.advance_ST : s.advance.ST = s.ST := rfl
@[simp] theorem State.advance_V : s.advance.V = s.V := rfl
@[simp] theorem State.advance_fb : s.advance.fb = s.fb := rfl
@[simp] theorem State.advance_prevKeys : s.advance.prevKeys = s.prevKeys := rfl
@[simp] theorem State.advance_rng : s.advance.rng = s.rng := rfl
@[simp] theorem State.advance_fault : s.advance.fault = s.fault := rfl
@[simp] theorem State.advance_host : s.advance.host = s.host := rfl

/-! Reading a register after an update -/

@[simp] theorem State.setPc_reg (w : Word) (q : RegIdx) : (s.setPc w).reg q = s.reg q := rfl
@[simp] theorem State.setI_reg (w : Word) (q : RegIdx) : (s.setI w).reg q = s.reg q := rfl
@[simp] theorem State.setMem_reg (m : Memory) (q : RegIdx) : (s.setMem m).reg q = s.reg q := rfl
@[simp] theorem State.setFb_reg (f : Framebuffer) (q : RegIdx) : (s.setFb f).reg q = s.reg q := rfl
@[simp] theorem State.setDT_reg (b : Byte) (q : RegIdx) : (s.setDT b).reg q = s.reg q := rfl
@[simp] theorem State.setST_reg (b : Byte) (q : RegIdx) : (s.setST b).reg q = s.reg q := rfl
@[simp] theorem State.setRng_reg (n : Nat) (q : RegIdx) : (s.setRng n).reg q = s.reg q := rfl
@[simp] theorem State.setPrevKeys_reg (k : Word) (q : RegIdx) : (s.setPrevKeys k).reg q = s.reg q := rfl
@[simp] theorem State.setCalls_reg (k : CallStack) (d : Depth) (q : RegIdx) : (s.setCalls k d).reg q = s.reg q := rfl
@[simp] theorem State.setHost_reg (h : HostPort) (q : RegIdx) : (s.setHost h).reg q = s.reg q := rfl
@[simp] theorem State.setFault_reg (f : Option FaultRecord) (q : RegIdx) : (s.setFault f).reg q = s.reg q := rfl
@[simp] theorem State.advance_reg (q : RegIdx) : s.advance.reg q = s.reg q := rfl

@[simp] theorem State.setRegs_reg (v : Registers) (q : RegIdx) : (s.setRegs v).reg q = v[q.val] := rfl

theorem State.setReg_reg (r q : RegIdx) (b : Byte) : (s.setReg r b).reg q = if q = r then b else s.reg q := by
  simp only [State.reg, State.setReg, Vector.getElem_set, Fin.ext_iff, eq_comm]

@[simp] theorem State.setReg_reg_same (r : RegIdx) (b : Byte) : (s.setReg r b).reg r = b := by
  simp [State.setReg_reg]

theorem State.setReg_reg_other {r q : RegIdx} (b : Byte) (h : q ≠ r) : (s.setReg r b).reg q = s.reg q := by
  simp [State.setReg_reg, h]

theorem State.setFlag_reg (f : Bool) (q : RegIdx) :
    (s.setFlag f).reg q = if q = flagReg then flagByte f else s.reg q := s.setReg_reg flagReg q _

/-- The flag is what VF holds afterwards, also when VF is the destination (R131). -/
theorem State.setResultFlag_reg (x q : RegIdx) (b : Byte) (f : Bool) :
    (s.setResultFlag x b f).reg q = if q = flagReg then flagByte f else if q = x then b else s.reg q := by
  simp only [State.setResultFlag, State.setFlag_reg, State.setReg_reg]

@[simp] theorem State.setFlag_mem (b : Bool) : (s.setFlag b).mem = s.mem := rfl
@[simp] theorem State.setResultFlag_mem (x : RegIdx) (b : Byte) (g : Bool) : (s.setResultFlag x b g).mem = s.mem := rfl
@[simp] theorem State.setFlag_pc (b : Bool) : (s.setFlag b).pc = s.pc := rfl
@[simp] theorem State.setResultFlag_pc (x : RegIdx) (b : Byte) (g : Bool) : (s.setResultFlag x b g).pc = s.pc := rfl
@[simp] theorem State.setFlag_I (b : Bool) : (s.setFlag b).I = s.I := rfl
@[simp] theorem State.setResultFlag_I (x : RegIdx) (b : Byte) (g : Bool) : (s.setResultFlag x b g).I = s.I := rfl
@[simp] theorem State.setFlag_stack (b : Bool) : (s.setFlag b).stack = s.stack := rfl
@[simp] theorem State.setResultFlag_stack (x : RegIdx) (b : Byte) (g : Bool) : (s.setResultFlag x b g).stack = s.stack := rfl
@[simp] theorem State.setFlag_sp (b : Bool) : (s.setFlag b).sp = s.sp := rfl
@[simp] theorem State.setResultFlag_sp (x : RegIdx) (b : Byte) (g : Bool) : (s.setResultFlag x b g).sp = s.sp := rfl
@[simp] theorem State.setFlag_DT (b : Bool) : (s.setFlag b).DT = s.DT := rfl
@[simp] theorem State.setResultFlag_DT (x : RegIdx) (b : Byte) (g : Bool) : (s.setResultFlag x b g).DT = s.DT := rfl
@[simp] theorem State.setFlag_ST (b : Bool) : (s.setFlag b).ST = s.ST := rfl
@[simp] theorem State.setResultFlag_ST (x : RegIdx) (b : Byte) (g : Bool) : (s.setResultFlag x b g).ST = s.ST := rfl
@[simp] theorem State.setFlag_fb (b : Bool) : (s.setFlag b).fb = s.fb := rfl
@[simp] theorem State.setResultFlag_fb (x : RegIdx) (b : Byte) (g : Bool) : (s.setResultFlag x b g).fb = s.fb := rfl
@[simp] theorem State.setFlag_prevKeys (b : Bool) : (s.setFlag b).prevKeys = s.prevKeys := rfl
@[simp] theorem State.setResultFlag_prevKeys (x : RegIdx) (b : Byte) (g : Bool) : (s.setResultFlag x b g).prevKeys = s.prevKeys := rfl
@[simp] theorem State.setFlag_rng (b : Bool) : (s.setFlag b).rng = s.rng := rfl
@[simp] theorem State.setResultFlag_rng (x : RegIdx) (b : Byte) (g : Bool) : (s.setResultFlag x b g).rng = s.rng := rfl
@[simp] theorem State.setFlag_fault (b : Bool) : (s.setFlag b).fault = s.fault := rfl
@[simp] theorem State.setResultFlag_fault (x : RegIdx) (b : Byte) (g : Bool) : (s.setResultFlag x b g).fault = s.fault := rfl
@[simp] theorem State.setFlag_host (b : Bool) : (s.setFlag b).host = s.host := rfl
@[simp] theorem State.setResultFlag_host (x : RegIdx) (b : Byte) (g : Bool) : (s.setResultFlag x b g).host = s.host := rfl

end Sys2Proof.Machine
end

