-- ==== Sys2Proof/Laws/Ops.lean ====
section
/-! SUPPORT. One lemma for each shared operation: everything it can do. -/

namespace Sys2Proof.Machine

/-! ## The call stack -/

/-- A push onto a full stack answers none. -/
theorem State.push_full {s : State} (w : Word) (h : s.sp = 16) : s.push w = none := by
  simp [State.push, h]

/-- A push with room (R112). -/
theorem State.push_room {s : State} (w : Word) (h : s.sp.val < 16) :
    s.push w = some (s.setCalls (s.stack.set s.sp.val w h) ⟨s.sp.val + 1, Nat.succ_lt_succ h⟩) := by
  simp [State.push, h]

/-- A pop of an empty stack answers none. -/
theorem State.pop_empty {s : State} (h : s.sp = 0) : s.pop = none := by
  simp [State.pop, h]

/-- A pop (R110): the newest entry, the depth one less, no entry cleared. -/
theorem State.pop_entry {s : State} {d : Nat} (h : s.sp.val = d + 1) (hd : d < 16) :
    s.pop = some (s.stack[d], s.setCalls s.stack ⟨d, by omega⟩) := by
  simp [State.pop, h]

/-- All that a push can do: it had room, and this is the state. -/
theorem State.push_some {s t : State} {w : Word} (h : s.push w = some t) :
    ∃ hd : s.sp.val < 16, t = s.setCalls (s.stack.set s.sp.val w hd) ⟨s.sp.val + 1, Nat.succ_lt_succ hd⟩ := by
  by_cases hd : s.sp.val < 16
  · rw [State.push_room w hd, Option.some.injEq] at h
    exact ⟨hd, h.symm⟩
  · rw [State.push_full w (Fin.ext (Nat.le_antisymm s.sp_le (Nat.le_of_not_lt hd)))] at h
    cases h

/-- All that a pop can do: there was an entry, and these are the value and the state. -/
theorem State.pop_some {s t : State} {w : Word} (h : s.pop = some (w, t)) :
    ∃ d : Fin 16, s.sp.val = d.val + 1 ∧ w = s.stack[d.val] ∧ t = s.setCalls s.stack ⟨d.val, Nat.lt_succ_of_lt d.isLt⟩ := by
  have hle := s.sp_le
  cases hd : s.sp.val with
  | zero => rw [State.pop_empty (Fin.ext hd)] at h; cases h
  | succ d =>
    rw [State.pop_entry hd (by omega), Option.some.injEq, Prod.mk.injEq] at h
    exact ⟨⟨d, by omega⟩, rfl, h.1.symm, h.2.symm⟩

/-! ## Faults and bounds -/

/-- Raising a fault answers a next state, in which only `fault` differs (R181, R183). -/
theorem raise_eq (code : FaultCode) (opcode : Option Word) (access : Option (AccessKind × Word)) (s : State) :
    raise code opcode access s =
      .next { s with fault := some ⟨code, s.pc, opcode, access.map Prod.fst, access.map Prod.snd⟩ } := rfl

theorem State.accessOutside_iff (s : State) (n : Nat) :
    s.accessOutside n = true ↔ 1 ≤ n ∧ 4096 < s.I.toNat + n := by
  simp [State.accessOutside]

theorem State.accessOutside_false (s : State) (n : Nat) :
    s.accessOutside n = false ↔ n = 0 ∨ s.I.toNat + n ≤ 4096 := by
  rw [← Bool.not_eq_true, State.accessOutside_iff]; omega

/-- The recorded address is `max(I, 4096)` (R188). -/
theorem State.firstOutside_toNat (s : State) : s.firstOutside.toNat = max s.I.toNat 4096 := by
  unfold State.firstOutside
  split
  · rename_i h; simp only [Config.memSize] at h ⊢; simp; omega
  · rename_i h; simp only [Config.memSize] at h; omega

/-! ## Register ranges -/

theorem State.length_firstRegs (s : State) {n : Nat} (h : n ≤ 16) : (s.firstRegs n).length = n := by
  simp [State.firstRegs]; omega

theorem State.getElem_firstRegs (s : State) {n k : Nat} (hk : k < (s.firstRegs n).length) (h : k < 16) :
    (s.firstRegs n)[k] = s.reg ⟨k, h⟩ := by
  simp [State.firstRegs, State.reg]

/-- After loading `n` registers from `base` on, each of them holds its byte and the others what they held (R173). -/
theorem getElem_loadRange (m : Memory) (base : Nat) (v : Registers) (n r : Nat) (h : r < 16) :
    (loadRange m base v n)[r] = if r < n then m.read (base + r) else v[r] := by
  induction n with
  | zero => simp [loadRange]
  | succ n ih =>
    simp only [loadRange, Vector.getElem_setIfInBounds, ih]
    by_cases hr : n = r
    · simp [hr]
    · have : r < n + 1 ↔ r < n := by omega
      simp [hr, this]

/-! ## Flags -/

theorem flagByte_toNat (f : Bool) : (flagByte f).toNat = f.toNat := by cases f <;> rfl

theorem flagByte_eq_one (f : Bool) : flagByte f = 1 ↔ f = true := by cases f <;> decide

theorem sum9_toNat (a b : Byte) : (sum9 a b).toNat = a.toNat + b.toNat := by
  have := a.isLt; have := b.isLt
  simp [sum9, Config.regWidth]; omega

theorem sumByte_toNat (a b : Byte) : (sumByte a b).toNat = (a.toNat + b.toNat) % 256 := by
  simp [sumByte, sum9_toNat]

/-- The carry is bit 8 of the exact sum: set exactly when the sum does not fit a byte (R143). -/
theorem carryOut_eq (a b : Byte) : carryOut a b = decide (256 ≤ a.toNat + b.toNat) := by
  have := a.isLt; have := b.isLt
  rw [carryOut, BitVec.getLsbD, sum9_toNat, Nat.testBit_eq_decide_div_mod_eq, Bool.eq_iff_iff, decide_eq_true_eq,
    decide_eq_true_eq, Config.regWidth]
  omega

theorem differenceByte_toNat (a b : Byte) : (differenceByte a b).toNat = (256 + a.toNat - b.toNat) % 256 := by
  have := a.isLt; have := b.isLt
  simp only [differenceByte, BitVec.toNat_ofInt]; omega

theorem shiftedOutRight_toNat (a : Byte) : (shiftedOutRight a).toNat = a.toNat % 2 := by
  rw [shiftedOutRight, BitVec.getLsbD, Nat.testBit_eq_decide_div_mod_eq]
  have : a.toNat / 2 ^ 0 % 2 = a.toNat % 2 := by simp
  rcases Nat.mod_two_eq_zero_or_one a.toNat with h | h <;> simp [h]

theorem shiftedOutLeft_toNat (a : Byte) : (shiftedOutLeft a).toNat = a.toNat / 128 := by
  have := a.isLt
  rw [shiftedOutLeft, BitVec.getLsbD, Nat.testBit_eq_decide_div_mod_eq]
  by_cases h : 128 ≤ a.toNat
  · have : a.toNat / 128 = 1 := by omega
    simp [this]
  · have : a.toNat / 128 = 0 := by omega
    simp [this]

/-! ## Operands -/

theorem wordOfAddr_toNat (nnn : Addr12) : (wordOfAddr nnn).toNat = nnn.toNat := by
  have := nnn.isLt
  simp [wordOfAddr]; omega

theorem State.regWord_toNat (s : State) (r : RegIdx) : (s.regWord r).toNat = (s.reg r).toNat := by
  have := (s.reg r).isLt
  simp [State.regWord]; omega

theorem glyphAddress_toNat (d : Byte) : (glyphAddress d).toNat = 0x50 + 5 * d.toNat := by
  have := d.isLt
  simp only [glyphAddress, Config.fontBase, Config.glyphStride, BitVec.toNat_ofNat]; omega

/-- `lowest_set_bit` (R10): for a nonzero word, a set bit below which none is set. -/
theorem lowestSetBit_spec {v : Word} (h : v ≠ 0x0000) :
    lowestSetBit v < 16 ∧ v.getLsbD (lowestSetBit v) = true ∧ ∀ j, j < lowestSetBit v → v.getLsbD j = false := by
  obtain ⟨i, hi⟩ : ∃ i, (List.range 16).find? (fun i => v.getLsbD i) = some i := by
    rw [← Option.isSome_iff_exists, List.find?_isSome]
    by_contra hno
    apply h
    apply BitVec.eq_of_getLsbD_eq
    intro i hi
    simp only [List.mem_range, not_exists, not_and] at hno
    simpa using hno i hi
  have hv : lowestSetBit v = i := by simp [lowestSetBit, hi]
  rw [List.find?_range_eq_some] at hi
  rw [hv]
  exact ⟨by simpa using hi.2.1, hi.1, fun j hj => by simpa using hi.2.2 j hj⟩

end Sys2Proof.Machine
end

