-- ==== Sys2Proof/Laws/Frames.lean ====
section
/-! SUPPORT. Lemmas on the terms of frames and fault records, and on the operations that end a meaning: a skip, a fault. -/

namespace Sys2Proof.Machine

theorem mem_bytesFrom (a n k : Nat) : Element.mem k ∈ bytesFrom a n ↔ a ≤ k ∧ k < a + n := by
  simp only [bytesFrom, List.mem_map, List.mem_range, Element.mem.injEq]
  constructor
  · rintro ⟨j, hj, rfl⟩; omega
  · intro h; exact ⟨k - a, by omega, by omega⟩

/-- Bytes written at `a` leave every address outside them alone. -/
theorem Memory.read_writeBytes_frame (m : Memory) {a k : Nat} {bs : List Byte} (h : Element.mem k ∉ bytesFrom a bs.length) :
    (m.writeBytes a bs).read k = m.read k := by
  rw [mem_bytesFrom] at h
  exact Memory.read_writeBytes_outside m bs (by omega)

/-- Every address after LD B,Vx has stored its digits (R171). -/
theorem read_after_digits (s : State) (x : RegIdx) (a : Nat) :
    (s.mem.writeBytes s.I.toNat (bcdDigits (s.reg x))).read a = Instr.byteAfter (.ldB x) s a := by
  by_cases h : s.I.toNat ≤ a ∧ a < s.I.toNat + 3
  · obtain ⟨k, rfl⟩ := Nat.exists_eq_add_of_le h.1
    have hk : k < 3 := by omega
    rw [Memory.read_writeBytes_inside _ _ _ (show k < (bcdDigits (s.reg x)).length from hk)]
    interval_cases k <;> simp [bcdDigits, Instr.byteAfter, Instr.storedByte]
  · rw [Memory.read_writeBytes_outside _ _ (show a < s.I.toNat ∨ s.I.toNat + 3 ≤ a by omega)]
    simp only [Instr.byteAfter, Instr.storedByte]
    rw [if_neg (by omega), if_neg (by omega), if_neg (by omega)]; rfl

/-- Every address after LD [I],Vx has stored its registers (R172). -/
theorem read_after_registers (s : State) (x : RegIdx) (a : Nat) :
    (s.mem.writeBytes s.I.toNat (s.firstRegs (x.val + 1))).read a = Instr.byteAfter (.dumpRegs x) s a := by
  have hx := regIdx_lt x
  have hl := s.length_firstRegs (n := x.val + 1) (by omega)
  by_cases h : s.I.toNat ≤ a ∧ a ≤ s.I.toNat + x.val
  · obtain ⟨k, rfl⟩ := Nat.exists_eq_add_of_le h.1
    rw [Memory.read_writeBytes_inside _ _ _ (show k < (s.firstRegs (x.val + 1)).length by omega),
      s.getElem_firstRegs _ (by omega)]
    simp [Instr.byteAfter, Instr.storedByte, show k ≤ x.val by omega]
  · rw [Memory.read_writeBytes_outside _ _ (by omega)]
    simp only [Instr.byteAfter, Instr.storedByte, dif_neg h]; rfl

theorem mem_regsBelow (n : Nat) (r : RegIdx) : Element.V r ∈ regsBelow n ↔ r.val < n := by
  simp [regsBelow]

/-- The recorded address, as claims write it (R188). -/
theorem State.firstOutside_eq (s : State) : s.firstOutside = s.maxI4096 := by
  have := s.I.isLt
  apply BitVec.eq_of_toNat_eq
  rw [s.firstOutside_toNat, State.maxI4096, BitVec.toNat_ofNat, Config.memSize]; omega

/-- What an access outside memory raises (R188). -/
theorem raiseAccess_eq (kind : AccessKind) (opcode : Word) (s : State) : raiseAccess kind opcode s =
    .next { s with fault := some ⟨.executionFault, s.pc, some opcode, some kind, some s.maxI4096⟩ } := by
  simp [raiseAccess, raise_eq, s.firstOutside_eq]

/-- The effect of the six skips (R120). -/
theorem skipIf_eq (taken : Bool) (s : State) :
    skipIf taken s = .next (s.setPc (if taken then s.pc + 4 else s.pc + 2)) := by
  cases taken
  · rfl
  · have h : s.advance.advance = s.setPc (s.pc + 2 + 2) := rfl
    rw [BitVec.add_assoc] at h
    simp only [skipIf, h, if_true]; rfl

/-- The key operand (R118): an index above 15 names no key. -/
theorem keyHeld_iff (keys : Word) (k : Byte) : keyHeld keys k = true ↔ k.toNat ≤ 15 ∧ keys.getLsbD k.toNat = true := by
  simp only [keyHeld, Config.keyCount, Bool.and_eq_true, decide_eq_true_eq]
  constructor <;> rintro ⟨h, h'⟩ <;> exact ⟨by omega, h'⟩

end Sys2Proof.Machine
end

