-- ==== Sys2Proof/Laws/PerInstr.lean ====
section
/-! SUPPORT. The laws stated instruction by instruction. Family TableRow: the word the encoder makes lies in the row of the
opcode map R76 that carries the instruction's mnemonic. -/

namespace Sys2Proof.Laws.TableRow

/-- Some row of R76 has the instruction's mnemonic, and `encode i & mask = match` for it. -/
def Statement (i : Instr) : Prop := ∃ row ∈ opcodeMap, row.mnemonic = i.mnemonic ∧ encode i &&& row.mask = row.matchBits

/-- A way to a statement: the row, its place in the map, its name, its bits. -/
theorem of_row {i : Instr} (row : OpcodeRow) (hrow : row ∈ opcodeMap) (hname : row.mnemonic = i.mnemonic)
    (hword : encode i &&& row.mask = row.matchBits) : Statement i := ⟨row, hrow, hname, hword⟩

theorem cls : Statement (.cls) :=
  of_row ⟨"CLS", 0x00E0, 0xFFFF⟩ (by decide) rfl rfl

theorem ret : Statement (.ret) :=
  of_row ⟨"RET", 0x00EE, 0xFFFF⟩ (by decide) rfl rfl

theorem jp (nnn : Addr12) : Statement (.jp nnn) :=
  of_row ⟨"JP_nnn", 0x1000, 0xF000⟩ (by decide) rfl (formatNNN_mask _ _)

theorem call (nnn : Addr12) : Statement (.call nnn) :=
  of_row ⟨"CALL_nnn", 0x2000, 0xF000⟩ (by decide) rfl (formatNNN_mask _ _)

theorem seImm (x : RegIdx) (nn : Byte) : Statement (.seImm x nn) :=
  of_row ⟨"SE_Vx_nn", 0x3000, 0xF000⟩ (by decide) rfl (by simp only [encode, formatXNN_eq_formatNNN]; exact formatNNN_mask _ _)

theorem sneImm (x : RegIdx) (nn : Byte) : Statement (.sneImm x nn) :=
  of_row ⟨"SNE_Vx_nn", 0x4000, 0xF000⟩ (by decide) rfl (by simp only [encode, formatXNN_eq_formatNNN]; exact formatNNN_mask _ _)

theorem seReg (x : RegIdx) (y : RegIdx) : Statement (.seReg x y) :=
  of_row ⟨"SE_Vx_Vy", 0x5000, 0xF00F⟩ (by decide) rfl (formatXYN_mask _ _ _ _)

theorem ldImm (x : RegIdx) (nn : Byte) : Statement (.ldImm x nn) :=
  of_row ⟨"LD_Vx_nn", 0x6000, 0xF000⟩ (by decide) rfl (by simp only [encode, formatXNN_eq_formatNNN]; exact formatNNN_mask _ _)

theorem addImm (x : RegIdx) (nn : Byte) : Statement (.addImm x nn) :=
  of_row ⟨"ADD_Vx_nn", 0x7000, 0xF000⟩ (by decide) rfl (by simp only [encode, formatXNN_eq_formatNNN]; exact formatNNN_mask _ _)

theorem ldReg (x : RegIdx) (y : RegIdx) : Statement (.ldReg x y) :=
  of_row ⟨"LD_Vx_Vy", 0x8000, 0xF00F⟩ (by decide) rfl (formatXYN_mask _ _ _ _)

theorem orReg (x : RegIdx) (y : RegIdx) : Statement (.orReg x y) :=
  of_row ⟨"OR_Vx_Vy", 0x8001, 0xF00F⟩ (by decide) rfl (formatXYN_mask _ _ _ _)

theorem andReg (x : RegIdx) (y : RegIdx) : Statement (.andReg x y) :=
  of_row ⟨"AND_Vx_Vy", 0x8002, 0xF00F⟩ (by decide) rfl (formatXYN_mask _ _ _ _)

theorem xorReg (x : RegIdx) (y : RegIdx) : Statement (.xorReg x y) :=
  of_row ⟨"XOR_Vx_Vy", 0x8003, 0xF00F⟩ (by decide) rfl (formatXYN_mask _ _ _ _)

theorem addReg (x : RegIdx) (y : RegIdx) : Statement (.addReg x y) :=
  of_row ⟨"ADD_Vx_Vy", 0x8004, 0xF00F⟩ (by decide) rfl (formatXYN_mask _ _ _ _)

theorem sub (x : RegIdx) (y : RegIdx) : Statement (.sub x y) :=
  of_row ⟨"SUB_Vx_Vy", 0x8005, 0xF00F⟩ (by decide) rfl (formatXYN_mask _ _ _ _)

theorem shr (x : RegIdx) (y : RegIdx) : Statement (.shr x y) :=
  of_row ⟨"SHR_Vx", 0x8006, 0xF00F⟩ (by decide) rfl (formatXYN_mask _ _ _ _)

theorem subn (x : RegIdx) (y : RegIdx) : Statement (.subn x y) :=
  of_row ⟨"SUBN_Vx_Vy", 0x8007, 0xF00F⟩ (by decide) rfl (formatXYN_mask _ _ _ _)

theorem shl (x : RegIdx) (y : RegIdx) : Statement (.shl x y) :=
  of_row ⟨"SHL_Vx", 0x800E, 0xF00F⟩ (by decide) rfl (formatXYN_mask _ _ _ _)

theorem sneReg (x : RegIdx) (y : RegIdx) : Statement (.sneReg x y) :=
  of_row ⟨"SNE_Vx_Vy", 0x9000, 0xF00F⟩ (by decide) rfl (formatXYN_mask _ _ _ _)

theorem ldI (nnn : Addr12) : Statement (.ldI nnn) :=
  of_row ⟨"LD_I_nnn", 0xA000, 0xF000⟩ (by decide) rfl (formatNNN_mask _ _)

theorem jpV0 (nnn : Addr12) : Statement (.jpV0 nnn) :=
  of_row ⟨"JP_V0_nnn", 0xB000, 0xF000⟩ (by decide) rfl (formatNNN_mask _ _)

theorem rnd (x : RegIdx) (nn : Byte) : Statement (.rnd x nn) :=
  of_row ⟨"RND_Vx_nn", 0xC000, 0xF000⟩ (by decide) rfl (by simp only [encode, formatXNN_eq_formatNNN]; exact formatNNN_mask _ _)

theorem drw (x : RegIdx) (y : RegIdx) (n : Nat) : Statement (.drw x y n) :=
  of_row ⟨"DRW_Vx_Vy_n", 0xD000, 0xF000⟩ (by decide) rfl (by simp only [encode, formatXYN_eq_formatNNN]; exact formatNNN_mask _ _)

theorem skp (x : RegIdx) : Statement (.skp x) :=
  of_row ⟨"SKP_Vx", 0xE09E, 0xF0FF⟩ (by decide) rfl (formatX_mask _ _ _)

theorem sknp (x : RegIdx) : Statement (.sknp x) :=
  of_row ⟨"SKNP_Vx", 0xE0A1, 0xF0FF⟩ (by decide) rfl (formatX_mask _ _ _)

theorem ldVxDT (x : RegIdx) : Statement (.ldVxDT x) :=
  of_row ⟨"LD_Vx_DT", 0xF007, 0xF0FF⟩ (by decide) rfl (formatX_mask _ _ _)

theorem ldVxK (x : RegIdx) : Statement (.ldVxK x) :=
  of_row ⟨"LD_Vx_K", 0xF00A, 0xF0FF⟩ (by decide) rfl (formatX_mask _ _ _)

theorem ldDTVx (x : RegIdx) : Statement (.ldDTVx x) :=
  of_row ⟨"LD_DT_Vx", 0xF015, 0xF0FF⟩ (by decide) rfl (formatX_mask _ _ _)

theorem ldSTVx (x : RegIdx) : Statement (.ldSTVx x) :=
  of_row ⟨"LD_ST_Vx", 0xF018, 0xF0FF⟩ (by decide) rfl (formatX_mask _ _ _)

theorem addI (x : RegIdx) : Statement (.addI x) :=
  of_row ⟨"ADD_I_Vx", 0xF01E, 0xF0FF⟩ (by decide) rfl (formatX_mask _ _ _)

theorem ldF (x : RegIdx) : Statement (.ldF x) :=
  of_row ⟨"LD_F_Vx", 0xF029, 0xF0FF⟩ (by decide) rfl (formatX_mask _ _ _)

theorem ldB (x : RegIdx) : Statement (.ldB x) :=
  of_row ⟨"LD_B_Vx", 0xF033, 0xF0FF⟩ (by decide) rfl (formatX_mask _ _ _)

theorem dumpRegs (x : RegIdx) : Statement (.dumpRegs x) :=
  of_row ⟨"LD__I__Vx", 0xF055, 0xF0FF⟩ (by decide) rfl (formatX_mask _ _ _)

theorem loadRegs (x : RegIdx) : Statement (.loadRegs x) :=
  of_row ⟨"LD_Vx__I", 0xF065, 0xF0FF⟩ (by decide) rfl (formatX_mask _ _ _)

end Sys2Proof.Laws.TableRow
end

