-- ==== Sys2Proof/Laws/Step.lean ====
section
/-! SUPPORT. What a step can do, said once: the branches of the step event, and of the model's step by event. -/

namespace Sys2Proof.Machine

/-! ## Fetch and latch -/

theorem fetch_inside {s : State} (h : s.pc.toNat ≤ 4094) : fetch s = some s.opcodeAtPc := by
  simp [fetch, h, State.opcodeAtPc, Memory.readOpcode]

/-- The opcode at `pc` depends on memory and `pc` only. -/
theorem opcodeAtPc_congr {s t : State} (hm : t.mem = s.mem) (hp : t.pc = s.pc) : t.opcodeAtPc = s.opcodeAtPc := by
  simp only [State.opcodeAtPc, hm, hp]

theorem fetch_outside {s : State} (h : 4094 < s.pc.toNat) : fetch s = none := by
  simp [fetch]; omega

theorem latchKeys_eq (s : State) : latchKeys s = if s.fault = none then { s with prevKeys := s.host.keys } else s := by
  unfold latchKeys
  cases h : s.fault <;> simp [State.setPrevKeys, h]

/-! ## Executing -/

/-- Every meaning answers a next state: a fault is one (R181). -/
theorem exec_next (i : Instr) (s : State) : ∃ t, exec i s = .next t := by
  cases i <;> first
    | exact ⟨_, rfl⟩
    | (simp only [exec, execRet, execCall, execDrw, execLdVxK, execLdB, execDumpRegs, execLoadRegs]
       split <;> exact ⟨_, rfl⟩)

/-! ## Which event a step runs -/

/-- Where the next event is a step, the model's step is the step event at the state it starts from. -/
theorem step_of_starts {s s' : State} (h : StepStarts s s') : step s = stepCore s' := by
  rcases h with ⟨h, rfl⟩ | ⟨keys, rest, h, rfl⟩
  · have : takeEvent s' = s' := by
      cases s' with
      | mk mem pc I stack sp DT ST V fb prevKeys rng fault host =>
        cases host; simp_all [takeEvent, nextEvent, keysDuring, State.setHost]
    simp [step, nextEvent, h, runEvent, this]
  · simp [step, nextEvent, h, runEvent, takeEvent, keysDuring, State.setHost]

theorem reply_of_starts {s s' : State} (h : StepStarts s s') : reply s = stepReport s' := by
  rcases h with ⟨h, rfl⟩ | ⟨keys, rest, h, rfl⟩
  · have : takeEvent s' = s' := by
      cases s' with
      | mk mem pc I stack sp DT ST V fb prevKeys rng fault host =>
        cases host; simp_all [takeEvent, nextEvent, keysDuring, State.setHost]
    simp [reply, nextEvent, h, eventReply, this]
  · simp [reply, nextEvent, h, eventReply, takeEvent, keysDuring, State.setHost]

/-- A step event starts with every element of the core as it was. -/
theorem StepStarts.core_eq {s s' : State} (h : StepStarts s s') : s' = { s with host := s'.host } := by
  rcases h with ⟨_, rfl⟩ | ⟨_, _, _, rfl⟩ <;> rfl

/-- Any event but a step: the model's step by that event. -/
theorem step_of_event {s : State} {e : HostEvent} {rest : List HostEvent} (h : s.host.pending = e :: rest)
    (he : ∀ k, e ≠ .step k) : step s = runEvent e { s with host := ⟨s.host.keys, rest⟩ } := by
  have hk : keysDuring e s.host.keys = s.host.keys := by
    cases e <;> first | rfl | exact absurd rfl (he _)
  simp [step, nextEvent, takeEvent, h, hk, State.setHost]

theorem reply_of_event {s : State} {e : HostEvent} {rest : List HostEvent} (h : s.host.pending = e :: rest)
    (he : ∀ k, e ≠ .step k) : reply s = eventReply e { s with host := ⟨s.host.keys, rest⟩ } := by
  have hk : keysDuring e s.host.keys = s.host.keys := by
    cases e <;> first | rfl | exact absurd rfl (he _)
  simp [reply, nextEvent, takeEvent, h, hk, State.setHost]

/-- Every state's next event is a step, or one of the other five. -/
theorem event_cases (s : State) : (∃ s', StepStarts s s') ∨
    ∃ e rest, s.host.pending = e :: rest ∧ ∀ k, e ≠ .step k := by
  cases h : s.host.pending with
  | nil => exact .inl ⟨s, .inl ⟨h, rfl⟩⟩
  | cons e rest =>
    by_cases he : ∃ k, e = .step k
    · obtain ⟨k, rfl⟩ := he
      exact .inl ⟨_, .inr ⟨k, rest, h, rfl⟩⟩
    · exact .inr ⟨e, rest, rfl, fun k hk => he ⟨k, hk⟩⟩

/-! ## The branches of the step event -/

/-- What the step event can do (R97), in the order of R191. -/
theorem stepCore_cases (s : State) :
    (s.fault ≠ none ∧ stepCore s = .next s) ∨
    (s.fault = none ∧ 4094 < s.pc.toNat ∧
      stepCore s = .next { s with fault := some ⟨.executionFault, s.pc, none, some .fetch, some s.pc⟩ }) ∨
    (s.fault = none ∧ s.pc.toNat ≤ 4094 ∧ s.opcodeAtPc = 0x0000 ∧
      stepCore s = .next { s with prevKeys := s.host.keys }) ∨
    (s.fault = none ∧ s.pc.toNat ≤ 4094 ∧ s.opcodeAtPc ≠ 0x0000 ∧ (∃ why, decodeWord s.opcodeAtPc = .error why) ∧
      stepCore s = .next { s with fault := some ⟨.decodeError, s.pc, some s.opcodeAtPc, none, none⟩ }) ∨
    (∃ i, s.fault = none ∧ s.pc.toNat ≤ 4094 ∧ s.opcodeAtPc ≠ 0x0000 ∧ decodeWord s.opcodeAtPc = .ok i ∧
      stepCore s = latchResult (exec i s)) := by
  unfold stepCore
  cases hf : s.fault with
  | some r => exact .inl ⟨by simp, rfl⟩
  | none =>
    right
    by_cases hpc : 4094 < s.pc.toNat
    · left
      rw [fetch_outside hpc]
      exact ⟨rfl, hpc, rfl⟩
    · right
      have hpc : s.pc.toNat ≤ 4094 := by omega
      rw [fetch_inside hpc]
      by_cases h0 : s.opcodeAtPc = 0x0000
      · left
        refine ⟨rfl, hpc, h0, ?_⟩
        simp only [h0, if_true, latchKeys_eq, hf]
      · right
        simp only [if_neg h0]
        cases hd : decodeWord s.opcodeAtPc with
        | error why => exact .inl ⟨trivial, hpc, h0, ⟨why, rfl⟩, rfl⟩
        | ok i => exact .inr ⟨i, trivial, hpc, h0, rfl, rfl⟩

/-- The same when the branch is known to run an instruction. -/
theorem stepCore_exec {s : State} {i : Instr} (hf : s.fault = none) (hpc : s.pc.toNat ≤ 4094)
    (h0 : s.opcodeAtPc ≠ 0x0000) (hd : decodeWord s.opcodeAtPc = .ok i) : stepCore s = latchResult (exec i s) := by
  unfold stepCore
  simp only [hf, fetch_inside hpc, if_neg h0, hd]

/-- The decoder reads no instruction from the zero word (R78). -/
theorem decodeWord_zero : decodeWord 0x0000 = .error .haltSentinel := by decide

/-! ## Several steps -/

theorem runSteps_succ {s t : State} (n : Nat) (h : step s = .next t) : runSteps (n + 1) s = runSteps n t := by
  simp only [runSteps, h]

/-! ## Placing an instruction (the host's withFetchWord) -/

theorem withFetchWord_fetches (s : State) (nbits w : Nat) :
    (s.withFetchWord nbits w).opcodeAtPc = tableWord nbits w ∧ (s.withFetchWord nbits w).pc.toNat ≤ 4094 := by
  have ha : s.fetchAddress.toNat ≤ 4094 := by
    unfold State.fetchAddress
    split
    · assumption
    · decide
  refine ⟨?_, ha⟩
  unfold State.withFetchWord State.placeOpcode State.opcodeAtPc Memory.writeOpcode
  simp only [State.setHost_mem, State.setFault_mem, State.setPc_mem, State.setMem_mem, State.setHost_pc,
    State.setFault_pc, State.setPc_pc]
  have h0 := Memory.read_writeBytes_inside s.mem s.fetchAddress.toNat
    [(tableWord nbits w).extractLsb' 8 8, (tableWord nbits w).extractLsb' 0 8] (j := 0) (by simp)
  have h1 := Memory.read_writeBytes_inside s.mem s.fetchAddress.toNat
    [(tableWord nbits w).extractLsb' 8 8, (tableWord nbits w).extractLsb' 0 8] (j := 1) (by simp)
  rw [Nat.add_zero] at h0
  rw [h0, h1]
  simp [wordOfBytes_extract]

/-- Its very next step runs exactly that instruction. -/
theorem step_withFetchWord {s : State} {nbits w : Nat} {i : Instr} (h : decodeWord (tableWord nbits w) = .ok i) :
    step (s.withFetchWord nbits w) = latchResult (exec i (s.withFetchWord nbits w)) := by
  obtain ⟨hop, hpc⟩ := withFetchWord_fetches s nbits w
  rw [step_of_starts (s' := s.withFetchWord nbits w) (.inl ⟨rfl, rfl⟩)]
  refine stepCore_exec rfl hpc ?_ (hop ▸ h)
  intro h0
  rw [← hop, h0, decodeWord_zero] at h
  cases h

end Sys2Proof.Machine
end

