-- ==== Sys2Proof/Tests/Slice0.lean ====
section
/-! SUPPORT. Tests: the ill-formed term that the check refuses; words written out from 30_encoding.md R71 and R76; steps of the
vectors of 95_test_vectors.md (each test names its rows); and, for every statement with hypotheses, a state and operands that meet
them. -/

namespace Sys2Proof.Tests
open Sys2Proof Sys2Proof.Machine

/-! ## Small states -/

/-- Registers set one after another. -/
def withRegs (s : State) (rs : List (RegIdx × Byte)) : State := rs.foldl (fun s r => s.setReg r.1 r.2) s

/-- The reset state with the two bytes of an opcode at 0x200 and some registers set. -/
def probe (hi lo : Byte) (rs : List (RegIdx × Byte)) : State :=
  withRegs (State.reset.setMem (((State.reset.mem).write 0x200 hi).write 0x201 lo)) rs

/-- The same with `I` and some more bytes of memory. -/
def probeI (hi lo : Byte) (rs : List (RegIdx × Byte)) (i : Word) (bytes : List Byte) : State :=
  let s := probe hi lo rs
  (s.setI i).setMem (s.mem.writeBytes i.toNat bytes)

/-- The next event is `step(keys)`. -/
def pressing (keys : Word) (s : State) : State := s.setHost ⟨0x0000, [.step keys]⟩

/-- The next events. -/
def events (es : List HostEvent) (s : State) : State := s.setHost ⟨0x0000, es⟩

/-- A stack of `n` entries, all 0x206. -/
def nested (n : Fin 17) (s : State) : State := s.setCalls (Vector.replicate 16 0x0206) n

/-- The framebuffer with some cells lit. -/
def lit (cells : List Nat) (s : State) : State := s.setFb (cells.foldl (fun fb k => fb.setIfInBounds k true) s.fb)

/-- The state after one step. -/
def after (s : State) : State :=
  match step s with
  | .next t => t
  | .fault _ | .refused _ => s

/-- A latched StackUnderflow. -/
def underflow : FaultRecord := ⟨.stackUnderflow, 0x0200, some 0x00EE, none, none⟩

/-! ## Well-formedness -/

theorem test_wellFormed_refuses_sixteen_rows : (Instr.drw 0 0 16).wellFormed = false := by decide
theorem test_wellFormed_accepts_fifteen_rows : (Instr.drw 15 15 15).wellFormed = true := by decide

/-! ## Decoding: R71 and R76, the words of the vectors -/

theorem test_decode_family_0 : decodeWord 0x00E0 = .ok .cls ∧ decodeWord 0x00EE = .ok .ret ∧
    decodeWord 0x0000 = .error .haltSentinel := by decide
theorem test_decode_family_1_2 : decodeWord 0x1ABC = .ok (.jp 0xABC) ∧ decodeWord 0x220A = .ok (.call 0x20A) := by decide
theorem test_decode_family_3_4 : decodeWord 0x3A5C = .ok (.seImm 10 0x5C) ∧ decodeWord 0x4105 = .ok (.sneImm 1 0x05) := by
  decide
theorem test_decode_family_5_9 : decodeWord 0x5120 = .ok (.seReg 1 2) ∧ decodeWord 0x9120 = .ok (.sneReg 1 2) := by decide
theorem test_decode_family_6_7 : decodeWord 0x6A12 = .ok (.ldImm 10 0x12) ∧ decodeWord 0x7105 = .ok (.addImm 1 0x05) := by
  decide
theorem test_decode_family_8 : decodeWord 0x8120 = .ok (.ldReg 1 2) ∧ decodeWord 0x8011 = .ok (.orReg 0 1) ∧
    decodeWord 0x8012 = .ok (.andReg 0 1) ∧ decodeWord 0x8013 = .ok (.xorReg 0 1) ∧ decodeWord 0x8014 = .ok (.addReg 0 1) ∧
    decodeWord 0x8F15 = .ok (.sub 15 1) ∧ decodeWord 0x8AB6 = .ok (.shr 10 11) ∧ decodeWord 0x8127 = .ok (.subn 1 2) ∧
    decodeWord 0x820E = .ok (.shl 2 0) := by decide
theorem test_decode_family_A_B : decodeWord 0xA300 = .ok (.ldI 0x300) ∧ decodeWord 0xB2FE = .ok (.jpV0 0x2FE) := by decide
theorem test_decode_family_C_D : decodeWord 0xC30F = .ok (.rnd 3 0x0F) ∧ decodeWord 0xD123 = .ok (.drw 1 2 3) := by decide
theorem test_decode_family_E : decodeWord 0xE39E = .ok (.skp 3) ∧ decodeWord 0xE3A1 = .ok (.sknp 3) := by decide
theorem test_decode_family_F : decodeWord 0xF207 = .ok (.ldVxDT 2) ∧ decodeWord 0xF10A = .ok (.ldVxK 1) ∧
    decodeWord 0xF215 = .ok (.ldDTVx 2) ∧ decodeWord 0xF218 = .ok (.ldSTVx 2) ∧ decodeWord 0xFF1E = .ok (.addI 15) ∧
    decodeWord 0xF429 = .ok (.ldF 4) ∧ decodeWord 0xF033 = .ok (.ldB 0) ∧ decodeWord 0xF155 = .ok (.dumpRegs 1) ∧
    decodeWord 0xF265 = .ok (.loadRegs 2) := by decide

/-- Rows DE1 to DE11. -/
theorem test_decode_rejects_families_0_to_9 :
    decodeWord 0x0001 = .error (.unrecognised 0x0001) ∧ decodeWord 0x00E1 = .error (.unrecognised 0x00E1) ∧
    decodeWord 0x00FF = .error (.unrecognised 0x00FF) ∧ decodeWord 0x0123 = .error (.unrecognised 0x0123) ∧
    decodeWord 0x0FFF = .error (.unrecognised 0x0FFF) ∧ decodeWord 0x5121 = .error (.unrecognised 0x5121) ∧
    decodeWord 0x512F = .error (.unrecognised 0x512F) ∧ decodeWord 0x8008 = .error (.unrecognised 0x8008) ∧
    decodeWord 0x8AB9 = .error (.unrecognised 0x8AB9) ∧ decodeWord 0x800F = .error (.unrecognised 0x800F) ∧
    decodeWord 0x9001 = .error (.unrecognised 0x9001) := by decide

/-- Rows DE12 to DE19. -/
theorem test_decode_rejects_families_E_F :
    decodeWord 0xE000 = .error (.unrecognised 0xE000) ∧ decodeWord 0xE19F = .error (.unrecognised 0xE19F) ∧
    decodeWord 0xE1A0 = .error (.unrecognised 0xE1A0) ∧ decodeWord 0xF000 = .error (.unrecognised 0xF000) ∧
    decodeWord 0xF166 = .error (.unrecognised 0xF166) ∧ decodeWord 0xF175 = .error (.unrecognised 0xF175) ∧
    decodeWord 0xF185 = .error (.unrecognised 0xF185) ∧ decodeWord 0xFFFF = .error (.unrecognised 0xFFFF) := by decide

/-! ## The step cycle: rows ST1 to ST8, DE6, FP1 -/

theorem test_step_fetches_high_byte_first :
    (after (probe 0x6A 0x12 [])).reg 10 = 0x12 ∧ (after (probe 0x6A 0x12 [])).pc = 0x202 := by decide
theorem test_step_halts_on_zero_word : reply (pressing 0x0003 State.reset) = .halted ∧
    (after (pressing 0x0003 State.reset)).pc = 0x200 ∧ (after (pressing 0x0003 State.reset)).prevKeys = 0x0003 := by decide
theorem test_step_faults_past_the_last_slot : (after (State.reset.setPc 0xFFF)).fault =
    some ⟨.executionFault, 0x0FFF, none, some .fetch, some 0x0FFF⟩ ∧ (after (State.reset.setPc 0xFFF)).pc = 0xFFF := by decide
theorem test_step_runs_the_last_slot :
    (after ((State.reset.setPc 0xFFE).setMem [(0xFFE, 0x60), (0xFFF, 0x01)])).pc = 0x1000 ∧
    (after ((State.reset.setPc 0xFFE).setMem [(0xFFE, 0x60), (0xFFF, 0x01)])).reg 0 = 0x01 := by decide
theorem test_step_takes_an_odd_pc :
    (after ((State.reset.setPc 0x201).setMem [(0x201, 0x61), (0x202, 0x77)])).reg 1 = 0x77 := by decide
theorem test_step_rejects_an_unlisted_word : (after (probe 0x51 0x21 [(1, 0x33)])).fault =
    some ⟨.decodeError, 0x0200, some 0x5121, none, none⟩ ∧ (after (probe 0x51 0x21 [(1, 0x33)])).pc = 0x200 := by decide
theorem test_faulting_step_latches_no_keys : (after (pressing 0xFFFF (probe 0x00 0xEE []))).fault = some underflow ∧
    (after (pressing 0xFFFF (probe 0x00 0xEE []))).prevKeys = 0x0000 := by decide

/-! ## Display: rows DS1, DS3, DS4, DS8 -/

set_option maxRecDepth 20000 in
theorem test_cls : (after (lit [0, 5, 2047] (probe 0x00 0xE0 []))).cell 0 5 = false ∧
    (after (lit [0, 5, 2047] (probe 0x00 0xE0 []))).cell 31 63 = false := by decide
set_option maxRecDepth 20000 in
theorem test_drw_collides : (after (lit [132] (probeI 0xD0 0x11 [(0, 3), (1, 2)] 0x300 [0xC0]))).cell 2 3 = true ∧
    (after (lit [132] (probeI 0xD0 0x11 [(0, 3), (1, 2)] 0x300 [0xC0]))).cell 2 4 = false ∧
    (after (lit [132] (probeI 0xD0 0x11 [(0, 3), (1, 2)] 0x300 [0xC0]))).reg 15 = 1 := by decide
set_option maxRecDepth 20000 in
theorem test_drw_clips : (after (probeI 0xD0 0x11 [(0, 62), (1, 31)] 0x300 [0xFF])).cell 31 63 = true ∧
    (after (probeI 0xD0 0x11 [(0, 62), (1, 31)] 0x300 [0xFF])).cell 31 0 = false ∧
    (after (probeI 0xD0 0x11 [(0, 62), (1, 31)] 0x300 [0xFF])).reg 15 = 0 := by decide

/-! ## Control transfer: rows CF3 to CF26 -/

theorem test_jp : (after (probe 0x1A 0xBC [])).pc = 0xABC := by decide
theorem test_call : (after (nested 15 (probe 0x23 0x00 []))).pc = 0x300 ∧ (after (nested 15 (probe 0x23 0x00 []))).sp = 16 ∧
    (after (nested 15 (probe 0x23 0x00 []))).stack[15] = 0x202 := by decide
theorem test_call_full : (after (nested 16 (probe 0x23 0x00 []))).fault =
    some ⟨.stackOverflow, 0x0200, some 0x2300, none, none⟩ := by decide
theorem test_ret : (after (nested 1 (probe 0x00 0xEE []))).pc = 0x206 ∧ (after (nested 1 (probe 0x00 0xEE []))).sp = 0 := by
  decide
theorem test_ret_empty : (after (nested 0 (probe 0x00 0xEE []))).fault = some underflow := by decide
theorem test_jpV0 : (after (probe 0xBF 0xFF [(0, 0xFF)])).pc = 0x10FE ∧ (after (probe 0xB2 0xFE [(0, 2), (2, 9)])).pc = 0x300 := by
  decide
theorem test_seImm : (after (probe 0x30 0x00 [])).pc = 0x204 ∧ (after (probe 0x30 0x00 [(0, 1)])).pc = 0x202 := by decide
theorem test_sneImm : (after (probe 0x41 0x05 [(1, 5)])).pc = 0x202 ∧ (after (probe 0x41 0x05 [(1, 6)])).pc = 0x204 := by decide
theorem test_seReg : (after (probe 0x51 0x20 [(1, 7), (2, 7)])).pc = 0x204 ∧
    (after (probe 0x51 0x20 [(1, 7), (2, 8)])).pc = 0x202 := by decide
theorem test_sneReg : (after (probe 0x91 0x20 [(1, 7), (2, 8)])).pc = 0x204 ∧ (after (probe 0x93 0x30 [(3, 9)])).pc = 0x202 := by
  decide
theorem test_skp : (after (pressing 0x0020 (probe 0xE3 0x9E [(3, 5)]))).pc = 0x204 ∧
    (after (pressing 0xFFDF (probe 0xE3 0x9E [(3, 5)]))).pc = 0x202 ∧
    (after (pressing 0xFFFF (probe 0xE3 0x9E [(3, 0x15)]))).pc = 0x202 := by decide
theorem test_sknp : (after (pressing 0x0020 (probe 0xE3 0xA1 [(3, 5)]))).pc = 0x202 ∧
    (after (pressing 0x0000 (probe 0xE3 0xA1 [(3, 5)]))).pc = 0x204 ∧
    (after (pressing 0xFFFF (probe 0xE3 0xA1 [(3, 0x10)]))).pc = 0x204 := by decide

/-! ## Arithmetic and logic: rows AR2 to AR11, SU1 to SU10, LG1 to LG3, SH2 to SH8 -/

theorem test_addImm : (after (probe 0x71 0x01 [(1, 0xFF), (15, 1)])).reg 1 = 0 ∧
    (after (probe 0x71 0x01 [(1, 0xFF), (15, 1)])).reg 15 = 1 := by decide
theorem test_addReg : (after (probe 0x80 0x14 [(0, 250), (1, 10)])).reg 0 = 4 ∧
    (after (probe 0x80 0x14 [(0, 250), (1, 10)])).reg 15 = 1 := by decide
theorem test_addReg_into_flag : (after (probe 0x8F 0x14 [(15, 200), (1, 100)])).reg 15 = 1 ∧
    (after (probe 0x80 0xF4 [(0, 5), (15, 3)])).reg 0 = 8 ∧ (after (probe 0x80 0xF4 [(0, 5), (15, 3)])).reg 15 = 0 := by decide
theorem test_addI : (after (probeI 0xF2 0x1E [(2, 5)] 0x0FFE [])).I = 0x1003 ∧
    (after (probeI 0xF2 0x1E [(2, 2)] 0xFFFF [])).I = 0x0001 := by decide
theorem test_sub : (after (probe 0x80 0x15 [(0, 5), (1, 10), (15, 1)])).reg 0 = 0xFB ∧
    (after (probe 0x80 0x15 [(0, 5), (1, 10), (15, 1)])).reg 15 = 0 := by decide
theorem test_sub_equal : (after (probe 0x80 0x15 [(0, 7), (1, 7)])).reg 0 = 0 ∧
    (after (probe 0x80 0x15 [(0, 7), (1, 7)])).reg 15 = 1 := by decide
theorem test_subn : (after (probe 0x81 0x27 [(1, 10), (2, 5), (15, 1)])).reg 1 = 0xFB ∧
    (after (probe 0x81 0x27 [(1, 10), (2, 5), (15, 1)])).reg 15 = 0 := by decide
theorem test_subn_into_flag : (after (probe 0x8F 0x17 [(15, 3), (1, 5)])).reg 15 = 1 := by decide
theorem test_orReg : (after (probe 0x80 0x11 [(0, 0xF0), (1, 0x0F), (15, 1)])).reg 0 = 0xFF ∧
    (after (probe 0x80 0x11 [(0, 0xF0), (1, 0x0F), (15, 1)])).reg 15 = 1 := by decide
theorem test_andReg : (after (probe 0x80 0x12 [(0, 0xF0), (1, 0x3C)])).reg 0 = 0x30 := by decide
theorem test_xorReg : (after (probe 0x80 0x13 [(0, 0xF0), (1, 0x3C)])).reg 0 = 0xCC := by decide
theorem test_shr : (after (probe 0x82 0x36 [(2, 5), (3, 0xAA)])).reg 2 = 2 ∧
    (after (probe 0x82 0x36 [(2, 5), (3, 0xAA)])).reg 15 = 1 ∧ (after (probe 0x82 0x36 [(2, 5), (3, 0xAA)])).reg 3 = 0xAA := by
  decide
theorem test_shr_clears_flag : (after (probe 0x82 0x06 [(2, 4), (15, 1)])).reg 2 = 2 ∧
    (after (probe 0x82 0x06 [(2, 4), (15, 1)])).reg 15 = 0 := by decide
theorem test_shl : (after (probe 0x82 0x0E [(2, 0x81)])).reg 2 = 2 ∧ (after (probe 0x82 0x0E [(2, 0x81)])).reg 15 = 1 := by decide
theorem test_shl_clears_flag : (after (probe 0x82 0x0E [(2, 0x41), (15, 1)])).reg 2 = 0x82 ∧
    (after (probe 0x82 0x0E [(2, 0x41), (15, 1)])).reg 15 = 0 := by decide

/-! ## Set and move: rows LD2, LD3, LD6 -/

theorem test_ldImm : (after (probe 0x6F 0x00 [(15, 1)])).reg 15 = 0 := by decide
theorem test_ldReg : (after (probe 0x81 0x20 [(1, 1), (2, 0x99)])).reg 1 = 0x99 ∧
    (after (probe 0x81 0x20 [(1, 1), (2, 0x99)])).reg 2 = 0x99 := by decide
theorem test_ldI : (after (probeI 0xA0 0x00 [] 0x1234 [])).I = 0 ∧ (after (probe 0xAF 0xFF [])).I = 0x0FFF := by decide

/-! ## Random, timers, key wait, tick: rows RN1, RN2, TM1 to TM3, KW1 to KW8, TK1 -/

theorem test_rnd : (after (probe 0xC3 0x0F [])).reg 3 = Config.randomByte 0 &&& 0x0F := by rfl
theorem test_rnd_advances : (after (probe 0xC3 0x00 [(3, 9)])).rng = 1 := by decide
theorem test_ldVxDT : (after ((probe 0xF2 0x07 []).setDT 0x3C)).reg 2 = 0x3C := by decide
theorem test_ldDTVx : (after (probe 0xF2 0x15 [(2, 0x3C)])).DT = 0x3C := by decide
theorem test_ldSTVx : (after (probe 0xF2 0x18 [(2, 0x04)])).ST = 0x04 := by decide
theorem test_ldVxK_waits : (after (pressing 0x0000 (probe 0xF0 0x0A [(0, 0x77)]))).pc = 0x200 ∧
    (after (pressing 0x0000 (probe 0xF0 0x0A [(0, 0x77)]))).reg 0 = 0x77 := by decide
theorem test_ldVxK_lowest : (after (pressing 0x8140 ((probe 0xF1 0x0A []).setPrevKeys 0x0100))).reg 1 = 6 ∧
    (after (pressing 0x0006 ((probe 0xF0 0x0A [(0, 0x77)]).setPrevKeys 0x0003))).reg 0 = 0 ∧
    (after (pressing 0x0006 ((probe 0xF0 0x0A [(0, 0x77)]).setPrevKeys 0x0003))).pc = 0x202 := by decide
theorem test_tick : (after (events [.tick] ((State.reset.setDT 2).setST 0))).DT = 1 ∧
    (after (events [.tick] ((State.reset.setDT 2).setST 0))).ST = 0 := by decide

/-! ## Index and memory: rows IM2, IM4, IM7, IM8, IM11, IM12, IM15, IM16 -/

theorem test_ldF : (after (probe 0xF4 0x29 [(4, 0x0A)])).I = 0x0082 ∧ (after (probe 0xF4 0x29 [(4, 0x10)])).I = 0x00A0 := by decide
theorem test_ldB : (after (probeI 0xF0 0x33 [(0, 234)] 0x300 [])).mem.read 0x300 = 2 ∧
    (after (probeI 0xF0 0x33 [(0, 234)] 0x300 [])).mem.read 0x301 = 3 ∧
    (after (probeI 0xF0 0x33 [(0, 107)] 0xFFD [])).mem.read 0xFFF = 7 := by decide
theorem test_ldB_outside : (after (probeI 0xF0 0x33 [(0, 107)] 0xFFE [])).fault =
    some ⟨.executionFault, 0x0200, some 0xF033, some .write, some 0x1000⟩ ∧
    (after (probeI 0xF0 0x33 [(0, 107)] 0xFFE [])).mem.read 0xFFE = 0 := by decide
theorem test_dumpRegs : (after (probeI 0xF1 0x55 [(0, 0xAB), (1, 0xCD), (2, 7)] 0xFFD [])).mem.read 0xFFD = 0xAB ∧
    (after (probeI 0xF1 0x55 [(0, 0xAB), (1, 0xCD), (2, 7)] 0xFFD [])).mem.read 0xFFE = 0xCD ∧
    (after (probeI 0xF1 0x55 [(0, 0xAB), (1, 0xCD), (2, 7)] 0xFFD [])).mem.read 0xFFF = 0 := by decide
theorem test_dumpRegs_outside : (after (probeI 0xF1 0x55 [(0, 0xAB), (1, 0xCD)] 0xFFF [])).fault =
    some ⟨.executionFault, 0x0200, some 0xF155, some .write, some 0x1000⟩ := by decide
theorem test_loadRegs : (after (probeI 0xF2 0x65 [(3, 0x77)] 0x300 [2, 3, 4, 5])).reg 0 = 2 ∧
    (after (probeI 0xF2 0x65 [(3, 0x77)] 0x300 [2, 3, 4, 5])).reg 2 = 4 ∧
    (after (probeI 0xF2 0x65 [(3, 0x77)] 0x300 [2, 3, 4, 5])).reg 3 = 0x77 := by decide
theorem test_loadRegs_outside : (after (probeI 0xF1 0x65 [(0, 1), (1, 2)] 0xFFF [0x5A])).fault =
    some ⟨.executionFault, 0x0200, some 0xF165, some .read, some 0x1000⟩ ∧
    (after (probeI 0xF1 0x65 [(0, 1), (1, 2)] 0xFFF [0x5A])).reg 0 = 1 := by decide

/-! ## Host events: rows LP3, LP4, LP5, RS1 -/

theorem test_loadProgram : (after (events [.loadProgram [9, 9]] ((State.reset.setPc 0x300).setMem [(0x202, 3)]))).pc = 0x200 ∧
    (after (events [.loadProgram [9, 9]] ((State.reset.setPc 0x300).setMem [(0x202, 3)]))).mem = [(0x200, 9), (0x201, 9), (0x202, 3)] := by
  decide
theorem test_hostWrite_while_faulted :
    (after (events [.hostWrite 0x300 7] (State.reset.setFault (some underflow)))).mem = [] ∧
    reply (events [.loadProgram [0x12, 0x00]] (State.reset.setFault (some underflow))) = .fault underflow := by decide
theorem test_reset_while_faulted : (after (events [.reset] ((probe 0x00 0xEE [(3, 1)]).setFault (some underflow)))).fault = none ∧
    (after (events [.reset] ((probe 0x00 0xEE [(3, 1)]).setFault (some underflow)))).mem = [] ∧
    (after (events [.reset] ((probe 0x00 0xEE [(3, 1)]).setFault (some underflow)))).reg 3 = 0 := by decide

/-- The fault-code table (R190), its seven rows. -/
theorem test_condition_numbers : [Condition.none, .latched .decodeError, .latched .stackOverflow, .latched .stackUnderflow,
    .latched .operandShapeMismatch, .latched .executionFault, .loadError].map Condition.number = [0, 1, 2, 3, 4, 5, 6] := by decide

/-- Program P9: a store over the low byte of the next word. -/
theorem test_store_over_one_byte_of_the_next_word : fetch (after (probeI 0xF0 0x55 [(0, 0xE0)] 0x203 [])) = some 0x00E0 := by
  decide

/-! ## Placing an instruction -/

theorem test_withFetchWord_runs_it : step (State.reset.withFetchWord 16 0x6A12) =
    latchResult (exec (.ldImm 10 0x12) (State.reset.withFetchWord 16 0x6A12)) ∧ decodeTableWord 16 0x6A12 = some (.ldImm 10 0x12) :=
  ⟨rfl, by decide⟩

/-! ## Witnesses: a state and operands that meet each statement's hypotheses, at the ends of their ranges -/

/-- A latched record of an access outside memory. -/
def beyond : FaultRecord := ⟨.executionFault, 0x0FFF, none, some .fetch, some 0x0FFF⟩

theorem test_witness_DecodingAnEncodedInstructionGivesItBack :
    (Instr.drw 1 2 0).wellFormed = true ∧ (Instr.drw 1 2 15).wellFormed = true := by decide

theorem test_witness_EncodingADecodedWordGivesItBack : decodeWord 0x8AB6 = .ok (.shr 10 11) := by decide

theorem test_witness_DecoderAcceptsExactlyTheOpcodeMap :
    (0xF265 : Word) ≠ 0x0000 ∧ (∃ row ∈ opcodeMap, (0xF265 : Word) &&& row.mask = row.matchBits) ∧
    (0x5121 : Word) ≠ 0x0000 ∧ ∀ row ∈ opcodeMap, (0x5121 : Word) &&& row.mask ≠ row.matchBits := by decide

/-- `StepStarts`, its first form and its second. -/
theorem test_witness_StepStarts : StepStarts (probe 0x6A 0x12 []) (probe 0x6A 0x12 []) ∧
    StepStarts (pressing 0x0003 State.reset) (State.reset.setHost ⟨0x0003, []⟩) :=
  ⟨.inl ⟨rfl, rfl⟩, .inr ⟨0x0003, [], rfl, rfl⟩⟩

theorem test_witness_StepRunsTheDecodedInstruction : ∃ s s' i, StepStarts s s' ∧ s.fault = none ∧ s.pc.toNat ≤ 4094 ∧
    decode [s.mem.read s.pc.toNat, s.mem.read (s.pc.toNat + 1)] = .ok (i, []) :=
  ⟨(State.reset.setPc 0xFFE).setMem [(0xFFE, 0x60), (0xFFF, 0x01)], _, .ldImm 0 0x01, .inl ⟨rfl, rfl⟩, rfl, by decide, by decide⟩

theorem test_witness_ZeroWordHaltsWithoutAdvance : ∃ s s', StepStarts s s' ∧ s.fault = none ∧ s.pc.toNat ≤ 4094 ∧
    s.opcodeAtPc = 0x0000 :=
  ⟨pressing 0x0003 (State.reset.setPc 0xFFE), _, .inr ⟨0x0003, [], rfl, rfl⟩, rfl, by decide, by decide⟩

/-- Two steps with a tick and a `get_state` between them, a third step still to come. -/
theorem test_witness_HaltedMachineStaysHalted : ∃ (events rest : List HostEvent) (s : State), events.length = 4 ∧
    s.host.pending = events ++ rest ∧ (∀ e ∈ events, e.writesNothing = true) ∧ s.fault = none ∧ s.pc.toNat ≤ 4094 ∧
    s.opcodeAtPc = 0x0000 ∧ rest = [.step 0x0001] :=
  ⟨[.step 0x0003, .tick, .getState, .step 0xFFFF], [.step 0x0001],
    events [.step 0x0003, .tick, .getState, .step 0xFFFF, .step 0x0001] State.reset, rfl, rfl, by decide, rfl, by decide,
    by decide, rfl⟩

theorem test_witness_FetchBeyondMemoryRaises : ∃ s s', StepStarts s s' ∧ s.fault = none ∧ 4094 < s.pc.toNat :=
  ⟨State.reset.setPc 0xFFF, _, .inl ⟨rfl, rfl⟩, rfl, by decide⟩

theorem test_witness_UnrecognisedWordRaisesDecodeError : ∃ s s', StepStarts s s' ∧ s.fault = none ∧ s.pc.toNat ≤ 4094 ∧
    s.opcodeAtPc ≠ 0x0000 ∧ ∀ row ∈ opcodeMap, s.opcodeAtPc &&& row.mask ≠ row.matchBits :=
  ⟨probe 0x51 0x21 [], _, .inl ⟨rfl, rfl⟩, rfl, by decide, by decide, by decide⟩

/-- One step that ends without a fault, one that raises. -/
theorem test_witness_StepLatchesKeysUnlessItFaults :
    (∃ s s' t, StepStarts s s' ∧ s.fault = none ∧ step s = .next t ∧ t.fault = none) ∧
    (∃ s s' t, StepStarts s s' ∧ s.fault = none ∧ step s = .next t ∧ t.fault ≠ none) :=
  ⟨⟨pressing 0x0003 State.reset, _, _, .inr ⟨0x0003, [], rfl, rfl⟩, rfl, rfl, rfl⟩,
   ⟨probe 0x00 0xEE [], _, _, .inl ⟨rfl, rfl⟩, rfl, rfl, by decide⟩⟩

theorem test_witness_StepWhileFaultedChangesNothing : ∃ s s' r, StepStarts s s' ∧ s.fault = some r :=
  ⟨pressing 0xFFFF (State.reset.setFault (some beyond)), _, beyond, .inr ⟨0xFFFF, [], rfl, rfl⟩, rfl⟩

theorem test_witness_OnlyResetLeavesTheFaultedCondition : ∃ s t r bytes rest, s.fault = some r ∧
    (∀ rest, s.host.pending ≠ .reset :: rest) ∧ step s = .next t ∧ s.host.pending = .loadProgram bytes :: rest :=
  ⟨events [.loadProgram [0x12, 0x00], .reset] (State.reset.setFault (some underflow)), _, underflow, _, _, rfl,
    (fun _ h => by cases h), rfl, rfl⟩

/-- The clauses' hypotheses are those of the statements on each fault, whose witnesses stand beside them; here the register ranges
at the first address outside, and the two ends of the latch. -/
theorem test_witness_FaultConditionsCarryTheirCodes : State.reset.fault = none ∧
    (State.reset.setFault (some underflow)).fault ≠ none ∧
    (∃ (x : RegIdx) (s : State), 4096 < s.I.toNat + (x.val + 1) ∧ x = 0) :=
  ⟨rfl, by decide, 0, State.reset.setI 0x1000, by decide, rfl⟩

theorem test_witness_FaultsArePrecise : ∃ s t r, s.fault = none ∧ step s = .next t ∧ t.fault = some r :=
  ⟨probe 0x00 0xEE [], _, underflow, rfl, rfl, by decide⟩

theorem test_witness_StepKeepsInv : ∃ s t, s.Inv ∧ step s = .next t :=
  ⟨State.reset, _, ⟨rfl, by decide, by decide, fun _ h => by cases h⟩, rfl⟩

/-- A next state without a fault and one that holds a record, as the two statements over all instructions distinguish. -/
theorem test_witness_OnlyTheWritersOfAnElementChangeIt : (∃ t, exec (.addReg 0 1) State.reset = .next t) ∧
    (∃ t, exec .ret State.reset = .next t ∧ t.fault ≠ none) :=
  ⟨⟨_, rfl⟩, ⟨_, rfl, by decide⟩⟩

theorem test_witness_FlagIsWrittenByExactlySixInstructions : (∃ t, exec (.drw 0 1 15) State.reset = .next t) ∧
    (∃ t, exec (.ldImm 15 9) State.reset = .next t) ∧ (∃ t, exec (.ldImm 0 9) State.reset = .next t) :=
  ⟨⟨_, rfl⟩, ⟨_, rfl⟩, ⟨_, rfl⟩⟩

/-- An instruction that each clause covers. -/
theorem test_witness_HiddenElementsReachOnlyTheirReaders : (∀ x, Instr.ret ≠ .ldVxK x) ∧
    (∀ x, Instr.ret ≠ .ldVxK x ∧ Instr.ret ≠ .skp x ∧ Instr.ret ≠ .sknp x) ∧ (∀ x nn, Instr.ret ≠ .rnd x nn) ∧
    (∀ x, Instr.ret ≠ .ldSTVx x) ∧ Instr.ret ≠ .cls ∧ ∀ x y n, Instr.ret ≠ .drw x y n :=
  ⟨nofun, fun _ => ⟨nofun, nofun, nofun⟩, nofun, nofun, nofun, nofun⟩

theorem test_witness_ResetEventRestoresEveryElement : ∃ (s : State) (rest : List HostEvent), s.host.pending = .reset :: rest ∧
    s.fault ≠ none :=
  ⟨events [.reset, .tick] (State.reset.setFault (some underflow)), [.tick], rfl, by decide⟩

theorem test_witness_TickCountsBothTimersDown : ∃ (s : State) (rest : List HostEvent), s.host.pending = .tick :: rest ∧
    s.fault = none ∧ s.DT = 0xFF ∧ s.ST = 0 :=
  ⟨events [.tick, .tick] (State.reset.setDT 0xFF), [.tick], rfl, rfl, rfl, rfl⟩

/-- An empty program and one that fills memory. -/
theorem test_witness_LoadProgramCopiesTheBytes :
    (∃ (s : State) (rest : List HostEvent), s.host.pending = .loadProgram [] :: rest ∧ s.fault = none) ∧
    (∃ (s : State) (bytes : List Byte) (rest : List HostEvent), s.host.pending = .loadProgram bytes :: rest ∧ s.fault = none ∧
      bytes.length = 3584) :=
  ⟨⟨events [.loadProgram []] State.reset, [], rfl, rfl⟩,
   ⟨events [.loadProgram (List.replicate 3584 0xAA)] State.reset, _, [], rfl, rfl, List.length_replicate⟩⟩

theorem test_witness_LoadProgramRefusesATooLongProgram :
    ∃ (s : State) (bytes : List Byte) (rest : List HostEvent), s.host.pending = .loadProgram bytes :: rest ∧ s.fault = none ∧
      bytes.length = 3585 :=
  ⟨events [.loadProgram (List.replicate 3585 0xAA)] State.reset, _, [], rfl, rfl, List.length_replicate⟩

theorem test_witness_HostWriteSetsOneByte :
    (∃ (s : State) (rest : List HostEvent), s.host.pending = .hostWrite 0x000 0x5A :: rest ∧ s.fault = none) ∧
    (∃ (s : State) (rest : List HostEvent), s.host.pending = .hostWrite 0xFFF 0x00 :: rest ∧ s.fault = none) :=
  ⟨⟨events [.hostWrite 0x000 0x5A] State.reset, [], rfl, rfl⟩, ⟨events [.hostWrite 0xFFF 0x00] State.reset, [], rfl, rfl⟩⟩

theorem test_witness_GetStateReadsAndChangesNothing :
    ∃ (s : State) (rest : List HostEvent), s.host.pending = .getState :: rest ∧ s.fault ≠ none :=
  ⟨events [.getState, .reset] (State.reset.setFault (some underflow)), [.reset], rfl, by decide⟩

/-- No rows, `I` anywhere; and the last sprite inside memory. -/
theorem test_witness_DrwXorsTheSpriteAndReportsCollision :
    (∃ (n : Nat) (s : State), (n = 0 ∨ s.I.toNat + n ≤ 4096) ∧ s.I = 0xFFFF) ∧
    (∃ (n : Nat) (s : State), (n = 0 ∨ s.I.toNat + n ≤ 4096) ∧ s.I.toNat + n = 4096 ∧ n = 3) :=
  ⟨⟨0, State.reset.setI 0xFFFF, .inl rfl, rfl⟩, ⟨3, State.reset.setI 0xFFD, .inr (by decide), by decide, rfl⟩⟩

theorem test_witness_DrwOutsideMemoryRaises : ∃ (n : Nat) (s : State), 1 ≤ n ∧ s.I.toNat + n = 4097 :=
  ⟨3, State.reset.setI 0xFFE, by decide, by decide⟩

set_option maxRecDepth 20000 in
/-- The inner hypothesis too: the first draw lights cell (0, 0). -/
theorem test_witness_DrawingTwiceRestoresTheFramebuffer : ∃ (x y : RegIdx) (n : Nat) (s t : State), x ≠ 15 ∧ y ≠ 15 ∧
    (n = 0 ∨ s.I.toNat + n ≤ 4096) ∧ exec (.drw x y n) s = .next t ∧ s.cell 0 0 = false ∧ t.cell 0 0 = true :=
  ⟨0, 1, 1, probeI 0xD0 0x11 [] 0x300 [0x80], _, by decide, by decide, .inr (by decide), rfl, by decide, by decide⟩

/-- One entry and sixteen. -/
theorem test_witness_RetPopsTheNewestEntry : (∃ (s : State) (d : Fin 16), s.sp.val = d.val + 1 ∧ d = 0) ∧
    (∃ (s : State) (d : Fin 16), s.sp.val = d.val + 1 ∧ d = 15) :=
  ⟨⟨nested 1 State.reset, 0, rfl, rfl⟩, ⟨nested 16 State.reset, 15, rfl, rfl⟩⟩

theorem test_witness_RetOnEmptyStackRaises : State.reset.sp = 0 := rfl

/-- None and fifteen. -/
theorem test_witness_CallPushesTheReturnAddress : (∃ (s : State) (d : Fin 16), s.sp.val = d.val ∧ d = 0) ∧
    (∃ (s : State) (d : Fin 16), s.sp.val = d.val ∧ d = 15) :=
  ⟨⟨State.reset, 0, rfl, rfl⟩, ⟨nested 15 State.reset, 15, rfl, rfl⟩⟩

theorem test_witness_CallOnFullStackRaises : (nested 16 State.reset).sp = 16 := rfl

theorem test_witness_CallThenRetComesBack : (nested 15 State.reset).sp.val < 16 := by decide

/-- A skip not taken, and one taken at the last slot. -/
theorem test_witness_SixSkipsShareOneEffect : Instr.skipCondition (.sneImm 1 0) State.reset = some false ∧
    Instr.skipCondition (.sknp 3) (State.reset.setPc 0xFFE) = some true ∧ (State.reset.setPc 0xFFE).pc.toNat = 4094 := by decide

theorem test_witness_KeyWaitRepeatsUntilAKeyChanges : State.reset.host.keys = State.reset.prevKeys ∧
    (State.reset.setHost ⟨0x8000, []⟩).host.keys ≠ (State.reset.setHost ⟨0x8000, []⟩).prevKeys := by decide

theorem test_witness_LdBStoresThreeDigits : (State.reset.setI 0xFFD).I.toNat + 3 = 4096 := by decide

theorem test_witness_register_ranges_inside : ∃ (x : RegIdx) (s : State), s.I.toNat + (x.val + 1) = 4096 ∧ x = 15 :=
  ⟨15, State.reset.setI 0xFF0, by decide, rfl⟩

/-- Each clause, at the first address outside. -/
theorem test_witness_IndexedAccessOutsideMemoryRaises : (State.reset.setI 0xFFE).I.toNat + 3 = 4097 ∧
    (∃ (x : RegIdx) (s : State), s.I.toNat + (x.val + 1) = 4097 ∧ x = 15) :=
  ⟨by decide, 15, State.reset.setI 0xFF1, by decide, rfl⟩

/-- Both storing instructions, the last place inside memory, and the last `pc` with a word after the store to fetch. -/
theorem test_witness_StoredBytesAreFetchedNext :
    (∃ (i : Instr) (n : Nat) (s : State), i.storeLength = some n ∧ s.I.toNat + n = 4096 ∧ s.pc.toNat = 4092 ∧ i = .ldB 3) ∧
    (∃ (i : Instr) (n : Nat) (s : State), i.storeLength = some n ∧ s.I.toNat + n = 4096 ∧ s.pc.toNat = 4092 ∧
      i = .dumpRegs 15) :=
  ⟨⟨.ldB 3, 3, (State.reset.setI 0xFFD).setPc 4092, rfl, by decide, by decide, rfl⟩,
   ⟨.dumpRegs 15, 16, (State.reset.setI 0xFF0).setPc 4092, rfl, by decide, by decide, rfl⟩⟩

end Sys2Proof.Tests
end

/-! # Proofs, family 10_state: frames of the state's updates, inversion of each meaning that branches, O17 to O20 -/

namespace Sys2Proof.Machine

/-! ## Composing frames: one lemma per update of the state -/

theorem Element.same_trans {e : Element} {s t u : State} (h : e.same s t) (h' : e.same t u) : e.same s u := by
  cases e <;> exact Eq.trans h' h

theorem OnlyChanged.trans {ws ws' : List Element} {s t u : State} (h : OnlyChanged ws s t) (h' : OnlyChanged ws' t u) :
    OnlyChanged (ws ++ ws') s u := fun e he =>
  Element.same_trans (h e fun hw => he (List.mem_append_left _ hw)) (h' e fun hw => he (List.mem_append_right _ hw))

theorem onlyChanged_setPc {s : State} {w : Word} : OnlyChanged [.pc] s (s.setPc w) := fun e he => by
  cases e with
  | pc => exact absurd (List.mem_singleton_self _) he
  | _ => rfl

theorem onlyChanged_advance {s : State} : OnlyChanged [.pc] s s.advance := onlyChanged_setPc

theorem onlyChanged_setI {s : State} {w : Word} : OnlyChanged [.I] s (s.setI w) := fun e he => by
  cases e with
  | I => exact absurd (List.mem_singleton_self _) he
  | _ => rfl

theorem onlyChanged_setDT {s : State} {b : Byte} : OnlyChanged [.DT] s (s.setDT b) := fun e he => by
  cases e with
  | DT => exact absurd (List.mem_singleton_self _) he
  | _ => rfl

theorem onlyChanged_setST {s : State} {b : Byte} : OnlyChanged [.ST] s (s.setST b) := fun e he => by
  cases e with
  | ST => exact absurd (List.mem_singleton_self _) he
  | _ => rfl

theorem onlyChanged_setFb {s : State} {f : Framebuffer} : OnlyChanged [.fb] s (s.setFb f) := fun e he => by
  cases e with
  | fb => exact absurd (List.mem_singleton_self _) he
  | _ => rfl

theorem onlyChanged_setRng {s : State} {n : Nat} : OnlyChanged [.rng] s (s.setRng n) := fun e he => by
  cases e with
  | rng => exact absurd (List.mem_singleton_self _) he
  | _ => rfl

theorem onlyChanged_setReg {s : State} {x : RegIdx} {b : Byte} : OnlyChanged [.V x] s (s.setReg x b) := fun e he => by
  cases e with
  | V r => exact s.setReg_reg_other b fun h => he (h ▸ List.mem_singleton_self _)
  | _ => rfl

theorem onlyChanged_setFlag {s : State} {f : Bool} : OnlyChanged [.V flagReg] s (s.setFlag f) :=
  onlyChanged_setReg

theorem onlyChanged_setResultFlag {s : State} {x : RegIdx} {b : Byte} {f : Bool} :
    OnlyChanged [.V x, .V flagReg] s (s.setResultFlag x b f) :=
  onlyChanged_setReg.trans onlyChanged_setFlag

/-- A pop moves the depth only. -/
theorem onlyChanged_setDepth {s : State} {d : Depth} : OnlyChanged [.sp] s (s.setCalls s.stack d) := fun e he => by
  cases e with
  | sp => exact absurd (List.mem_singleton_self _) he
  | _ => rfl

theorem onlyChanged_setCalls {s : State} {k : CallStack} {d : Depth} :
    OnlyChanged [.sp, .stack] s (s.setCalls k d) := fun e he => by
  cases e with
  | sp | stack => simp at he
  | _ => rfl

theorem onlyChanged_writeBytes {s : State} {a : Nat} {bs : List Byte} :
    OnlyChanged (bytesFrom a bs.length) s (s.setMem (s.mem.writeBytes a bs)) := fun e he => by
  cases e with
  | mem k => exact Memory.read_writeBytes_frame s.mem he
  | _ => rfl

theorem onlyChanged_loadRange {s : State} {m : Memory} {base n : Nat} :
    OnlyChanged (regsBelow n) s (s.setRegs (loadRange m base s.V n)) := fun e he => by
  cases e with
  | V r =>
    rw [mem_regsBelow] at he
    exact (getElem_loadRange m base s.V n r.val r.isLt).trans (if_neg he)
  | _ => rfl

/-! ## What the meanings that branch can do -/

/-- `t` is `s` with a record latched that has a legal shape and names the step's `pc` (R34, R181, R183). -/
def LatchesLegal (s t : State) : Prop :=
  ∃ r : FaultRecord, r.wellFormed = true ∧ r.pc0 = s.pc ∧ t = { s with fault := some r }

/-- The record's address lies outside memory (R188). -/
theorem State.memSize_le_maxI4096 (s : State) : Config.memSize ≤ s.maxI4096.toNat := by
  rw [← s.firstOutside_eq, s.firstOutside_toNat]; exact Nat.le_max_right ..

theorem raiseAccess_latchesLegal {kind : AccessKind} {opcode : Word} {s t : State} (hk : kind ≠ .fetch)
    (h : raiseAccess kind opcode s = .next t) : LatchesLegal s t := by
  rw [raiseAccess_eq] at h
  refine ⟨_, ?_, ?_, (Host.Outcome.next.inj h).symm⟩
  · cases kind with
    | fetch => exact absurd rfl hk
    | read | write => exact decide_eq_true s.memSize_le_maxI4096
  · rfl

/-- The shape the four meanings with a bounds check share (R53): a legal fault, or the access is inside memory. -/
theorem boundsChecked_cases {s t u : State} {n : Nat} {kind : AccessKind} {opcode : Word} (hk : kind ≠ .fetch)
    (h : (if s.accessOutside n then raiseAccess kind opcode s else .next u) = .next t) :
    LatchesLegal s t ∨ (n = 0 ∨ s.I.toNat + n ≤ 4096) ∧ t = u := by
  split at h
  · exact .inl (raiseAccess_latchesLegal hk h)
  next hin => exact .inr ⟨(s.accessOutside_false n).mp (Bool.eq_false_iff.mpr hin), (Host.Outcome.next.inj h).symm⟩

theorem execDrw_cases {x y : RegIdx} {n : Nat} {s t : State} (h : execDrw x y n s = .next t) :
    LatchesLegal s t ∨
      t = (s.advance.setFb (drawRows s.mem s.I.toNat (originColumn (s.reg x)) (originRow (s.reg y)) (s.fb, false) n).1).setFlag
        (drawRows s.mem s.I.toNat (originColumn (s.reg x)) (originRow (s.reg y)) (s.fb, false) n).2 :=
  (boundsChecked_cases (by decide) h).imp_right And.right

theorem execLdB_cases {x : RegIdx} {s t : State} (h : execLdB x s = .next t) : LatchesLegal s t ∨
    s.I.toNat + 3 ≤ 4096 ∧ t = s.advance.setMem (s.mem.writeBytes s.I.toNat (bcdDigits (s.reg x))) :=
  (boundsChecked_cases (by decide) h).imp_right fun ⟨hin, ht⟩ => ⟨by omega, ht⟩

theorem execDumpRegs_cases {x : RegIdx} {s t : State} (h : execDumpRegs x s = .next t) : LatchesLegal s t ∨
    s.I.toNat + (x.val + 1) ≤ 4096 ∧
      t = s.advance.setMem (s.mem.writeBytes s.I.toNat (s.firstRegs (x.val + 1))) :=
  (boundsChecked_cases (by decide) h).imp_right fun ⟨hin, ht⟩ => ⟨by omega, ht⟩

theorem execLoadRegs_cases {x : RegIdx} {s t : State} (h : execLoadRegs x s = .next t) : LatchesLegal s t ∨
    t = s.advance.setRegs (loadRange s.mem s.I.toNat s.V (x.val + 1)) :=
  (boundsChecked_cases (by decide) h).imp_right And.right

theorem execRet_cases {s t : State} (h : execRet s = .next t) : LatchesLegal s t ∨
    ∃ (k : Fin 16) (d : Depth), t = (s.setCalls s.stack d).setPc s.stack[k.val] := by
  unfold execRet at h
  split at h
  · exact .inl ⟨_, rfl, rfl, (Host.Outcome.next.inj h).symm⟩
  next hpop =>
    obtain ⟨k, -, rfl, rfl⟩ := State.pop_some hpop
    exact .inr ⟨k, _, (Host.Outcome.next.inj h).symm⟩

theorem execCall_cases {nnn : Addr12} {s t : State} (h : execCall nnn s = .next t) : LatchesLegal s t ∨
    ∃ (hd : s.sp.val < 16) (d : Depth), t = (s.setCalls (s.stack.set s.sp.val (s.pc + 2) hd) d).setPc (wordOfAddr nnn) := by
  unfold execCall at h
  split at h
  · exact .inl ⟨_, rfl, rfl, (Host.Outcome.next.inj h).symm⟩
  next hpush =>
    obtain ⟨hd, rfl⟩ := State.push_some hpush
    exact .inr ⟨hd, _, (Host.Outcome.next.inj h).symm⟩

/-- The key wait (R164): the rewound `pc` is the `pc` of the instruction, so nothing changes, or one register is written. -/
theorem execLdVxK_cases {x : RegIdx} {s t : State} (h : execLdVxK x s = .next t) :
    t = s ∨ ∃ b, t = s.advance.setReg x b := by
  unfold execLdVxK at h
  split at h
  · rw [State.advance_pc, BitVec.add_sub_cancel] at h
    exact .inl (Host.Outcome.next.inj h).symm
  · exact .inr ⟨_, (Host.Outcome.next.inj h).symm⟩

theorem skipIf_cases {taken : Bool} {s t : State} (h : skipIf taken s = .next t) :
    ∃ w, (w = s.pc + 2 ∨ w = s.pc + 4) ∧ t = s.setPc w := by
  rw [skipIf_eq] at h
  refine ⟨_, ?_, (Host.Outcome.next.inj h).symm⟩
  split
  · exact .inr rfl
  · exact .inl rfl

/-! ## The invariant, update by update -/

/-- The invariant speaks of four elements only. -/
theorem State.Inv.of_eq {s t : State} (hs : s.Inv) (hm : t.mem = s.mem) (hp : t.pc = s.pc) (hk : t.stack = s.stack)
    (hf : t.fault = s.fault) : t.Inv where
  memWf := hm ▸ hs.memWf
  pcRange := hp ▸ hs.pcRange
  stackRange := hk ▸ hs.stackRange
  faultShape := hf ▸ hp ▸ hs.faultShape

theorem State.Inv.latch {s t : State} (hs : s.Inv) (h : LatchesLegal s t) : t.Inv := by
  obtain ⟨r, hwf, hpc0, rfl⟩ := h
  refine ⟨hs.memWf, hs.pcRange, hs.stackRange, fun r' hr => ?_⟩
  cases hr
  exact ⟨hwf, hpc0⟩

theorem State.Inv.setMem {s : State} {m : Memory} (hs : s.Inv) (hm : m.wf = true) : (s.setMem m).Inv :=
  ⟨hm, hs.pcRange, hs.stackRange, hs.faultShape⟩

/-- `pc` moves while no record names it. -/
theorem State.Inv.setPc {s : State} {w : Word} (hs : s.Inv) (hf : s.fault = none) (hw : w.toNat ≤ 0x10FE) :
    (s.setPc w).Inv :=
  ⟨hs.memWf, hw, hs.stackRange, fun r hr => by cases hf.symm.trans hr⟩

theorem State.Inv.setCalls {s : State} {k : CallStack} (d : Depth) (hs : s.Inv)
    (hk : ∀ j : Fin 16, k[j.val].toNat ≤ Config.memSize) : (s.setCalls k d).Inv :=
  ⟨hs.memWf, hs.pcRange, hk, hs.faultShape⟩

/-- An instruction fetched inside memory keeps the invariant: `pc` gains at most 4, or becomes a 12-bit target, that plus a byte,
or a return address (R38). -/
theorem exec_keeps_inv {i : Instr} {s t : State} (hs : s.Inv) (hf : s.fault = none) (hpc : s.pc.toNat ≤ 4094)
    (h : exec i s = .next t) : t.Inv := by
  have hadd : ∀ w, w = s.pc + 2 ∨ w = s.pc + 4 → w.toNat ≤ 0x10FE := by rintro w (rfl | rfl) <;> bv_omega
  have hadv : s.advance.Inv := hs.setPc hf (hadd _ (.inl rfl))
  cases i with
  | jp nnn =>
    obtain rfl := Host.Outcome.next.inj h
    have := nnn.isLt
    exact hs.setPc hf (by rw [wordOfAddr_toNat]; omega)
  | jpV0 nnn =>
    obtain rfl := Host.Outcome.next.inj h
    have := nnn.isLt
    have := (s.reg 0).isLt
    exact hs.setPc hf (by rw [BitVec.toNat_add, wordOfAddr_toNat, s.regWord_toNat]; omega)
  | seImm | sneImm | seReg | sneReg | skp | sknp =>
    obtain ⟨w, hw, rfl⟩ := skipIf_cases h
    exact hs.setPc hf (hadd w hw)
  | ret =>
    obtain hl | ⟨k, d, rfl⟩ := execRet_cases h
    · exact hs.latch hl
    · exact (hs.setCalls d hs.stackRange).setPc hf ((hs.stackRange k).trans (by decide))
  | call nnn =>
    obtain hl | ⟨hd, d, rfl⟩ := execCall_cases h
    · exact hs.latch hl
    · have := nnn.isLt
      refine (hs.setCalls d fun j => ?_).setPc hf (by rw [wordOfAddr_toNat]; omega)
      rw [Vector.getElem_set]
      split
      · show (s.pc + 2).toNat ≤ 4096
        bv_omega
      · exact hs.stackRange j
  | drw =>
    obtain hl | rfl := execDrw_cases h
    · exact hs.latch hl
    · exact hadv.of_eq rfl rfl rfl rfl
  | ldB x =>
    obtain hl | ⟨hin, rfl⟩ := execLdB_cases h
    · exact hs.latch hl
    · exact hadv.setMem (Memory.wf_writeBytes _ _ _ hs.memWf hin)
  | dumpRegs x =>
    obtain hl | ⟨hin, rfl⟩ := execDumpRegs_cases h
    · exact hs.latch hl
    · exact hadv.setMem (Memory.wf_writeBytes _ _ _ hs.memWf (by rwa [s.length_firstRegs x.isLt]))
  | loadRegs =>
    obtain hl | rfl := execLoadRegs_cases h
    · exact hs.latch hl
    · exact hadv.of_eq rfl rfl rfl rfl
  | ldVxK =>
    obtain rfl | ⟨b, rfl⟩ := execLdVxK_cases h
    · exact hs
    · exact hadv.of_eq rfl rfl rfl rfl
  | cls | ldImm | addImm | ldReg | orReg | andReg | xorReg | addReg | sub | shr | subn | shl | ldI | rnd | ldVxDT | ldDTVx
  | ldSTVx | addI | ldF =>
    obtain rfl := Host.Outcome.next.inj h
    exact hadv.of_eq rfl rfl rfl rfl

theorem latchKeys_keeps_inv {s : State} (hs : s.Inv) : (latchKeys s).Inv := by
  rw [latchKeys_eq]
  split
  · exact hs.of_eq rfl rfl rfl rfl
  · exact hs

theorem stepCore_keeps_inv {s t : State} (hs : s.Inv) (h : stepCore s = .next t) : t.Inv := by
  obtain ⟨-, he⟩ | ⟨-, hpc, he⟩ | ⟨-, -, -, he⟩ | ⟨-, -, -, -, he⟩ | ⟨i, hf, hpc, -, -, he⟩ := stepCore_cases s <;>
    rw [he] at h
  · exact Host.Outcome.next.inj h ▸ hs
  · refine hs.latch ⟨_, ?_, ?_, (Host.Outcome.next.inj h).symm⟩
    · exact Bool.and_eq_true_iff.mpr ⟨decide_eq_true rfl, decide_eq_true hpc⟩
    · rfl
  · exact Host.Outcome.next.inj h ▸ hs.of_eq rfl rfl rfl rfl
  · exact hs.latch ⟨_, rfl, rfl, (Host.Outcome.next.inj h).symm⟩
  · obtain ⟨u, hu⟩ := exec_next i s
    rw [hu] at h
    exact Host.Outcome.next.inj h ▸ latchKeys_keeps_inv (exec_keeps_inv hs hf hpc hu)

theorem reset_inv : State.reset.Inv where
  memWf := rfl
  pcRange := by decide
  stackRange := by decide
  faultShape := fun _ hr => by cases hr

theorem tick_keeps_inv {s : State} (hs : s.Inv) : (tick s).Inv := by
  unfold tick
  split
  · exact hs
  · exact hs.of_eq rfl rfl rfl rfl

theorem loadProgram_keeps_inv {s : State} (bytes : List Byte) (hs : s.Inv) : (loadProgram bytes s).Inv := by
  unfold loadProgram
  split
  · exact hs
  next hf =>
    split
    next hfit =>
      exact (hs.setMem (Memory.wf_writeBytes _ _ _ hs.memWf (of_decide_eq_true hfit))).setPc hf (by decide)
    · exact hs

theorem hostWrite_keeps_inv {s : State} (addr : Addr12) (byte : Byte) (hs : s.Inv) : (hostWrite addr byte s).Inv := by
  unfold hostWrite
  split
  · exact hs
  · exact hs.setMem (Memory.wf_write _ _ _ hs.memWf addr.isLt)

theorem runEvent_keeps_inv {e : HostEvent} {s t : State} (hs : s.Inv) (h : runEvent e s = .next t) : t.Inv := by
  cases e with
  | step => exact stepCore_keeps_inv hs h
  | tick => exact Host.Outcome.next.inj h ▸ tick_keeps_inv hs
  | loadProgram bytes => exact Host.Outcome.next.inj h ▸ loadProgram_keeps_inv bytes hs
  | hostWrite addr byte => exact Host.Outcome.next.inj h ▸ hostWrite_keeps_inv addr byte hs
  | getState => exact Host.Outcome.next.inj h ▸ hs
  | reset => exact Host.Outcome.next.inj h ▸ reset_inv.of_eq rfl rfl rfl rfl

/-- Settles O17: taking the event off the port touches no element the invariant speaks of, and every event keeps it. -/
theorem stepKeepsInv : Obligations.StepKeepsInv := fun s _ hs h =>
  have htake : (takeEvent s).Inv := hs.of_eq rfl rfl rfl rfl
  runEvent_keeps_inv htake h

/-! ## Frames of the instructions, by R20's "written by" column -/

/-- A frame within the column leaves everything else alone. -/
theorem OnlyChanged.same_of_mayWrite_eq_false {ws : List Element} {i : Instr} {s t : State} (h : OnlyChanged ws s t)
    (hws : ∀ e ∈ ws, i.mayWrite s e = true) (e : Element) (he : i.mayWrite s e = false) : e.same s t :=
  h e fun hmem => Bool.false_ne_true (he.symm.trans (hws e hmem))

/-- An advance followed by one update, within the column. -/
theorem OnlyChanged.same_after_advance {ws : List Element} {i : Instr} {s t : State} (h : OnlyChanged ws s.advance t)
    (hws : ∀ e ∈ ws, i.mayWrite s e = true) (e : Element) (he : i.mayWrite s e = false) : e.same s t :=
  (onlyChanged_advance.trans h).same_of_mayWrite_eq_false (List.forall_mem_cons.mpr ⟨rfl, hws⟩) e he

theorem mayWrite_bytesFrom {i : Instr} {n : Nat} (s : State) (hn : i.storeLength = some n) :
    ∀ e ∈ bytesFrom s.I.toNat n, i.mayWrite s e = true := by
  intro e he
  obtain ⟨k, -, rfl⟩ := List.mem_map.mp he
  simpa [Instr.mayWrite, hn] using he

theorem mayWrite_destination {i : Instr} {x : RegIdx} (s : State) (hx : i.namesDestination x = true) :
    ∀ e ∈ [Element.V x], i.mayWrite s e = true := by
  simp [Instr.mayWrite, hx]

theorem mayWrite_resultFlag {i : Instr} {x : RegIdx} (s : State) (hx : i.namesDestination x = true)
    (hf : i.writesFlag = true) : ∀ e ∈ [Element.V x, .V flagReg], i.mayWrite s e = true := by
  simp [Instr.mayWrite, hx, hf]

/-- Every instruction raises a legal fault or writes only what R20's column gives it. -/
theorem exec_frame {i : Instr} {s t : State} (h : exec i s = .next t) :
    LatchesLegal s t ∨ ∀ e : Element, i.mayWrite s e = false → e.same s t := by
  cases i with
  | addReg x | sub x | subn x | shr x | shl x =>
    obtain rfl := Host.Outcome.next.inj h
    exact .inr (onlyChanged_setResultFlag.same_after_advance (mayWrite_resultFlag s (decide_eq_true rfl) rfl))
  | ldImm x | addImm x | ldReg x | orReg x | andReg x | xorReg x | ldVxDT x =>
    obtain rfl := Host.Outcome.next.inj h
    exact .inr (onlyChanged_setReg.same_after_advance (mayWrite_destination s (decide_eq_true rfl)))
  | rnd x =>
    obtain rfl := Host.Outcome.next.inj h
    exact .inr ((onlyChanged_setRng.trans onlyChanged_setReg).same_after_advance
      (List.forall_mem_cons.mpr ⟨rfl, mayWrite_destination s (decide_eq_true rfl)⟩))
  | ldVxK x =>
    obtain rfl | ⟨b, rfl⟩ := execLdVxK_cases h
    · exact .inr fun e _ => by cases e <;> rfl
    · exact .inr (onlyChanged_setReg.same_after_advance (mayWrite_destination s (decide_eq_true rfl)))
  | loadRegs x =>
    obtain hl | rfl := execLoadRegs_cases h
    · exact .inl hl
    · refine .inr ((onlyChanged_loadRange (s := s.advance)).same_after_advance fun e he => ?_)
      obtain ⟨r, hr, rfl⟩ := List.mem_map.mp he
      have hle : r.val ≤ x.val := by simpa [Nat.lt_succ_iff] using hr
      simp [Instr.mayWrite, Instr.namesDestination, hle]
  | ldI | addI | ldF =>
    obtain rfl := Host.Outcome.next.inj h
    exact .inr (onlyChanged_setI.same_after_advance (List.forall_mem_singleton.mpr rfl))
  | ldDTVx =>
    obtain rfl := Host.Outcome.next.inj h
    exact .inr (onlyChanged_setDT.same_after_advance (List.forall_mem_singleton.mpr rfl))
  | ldSTVx =>
    obtain rfl := Host.Outcome.next.inj h
    exact .inr (onlyChanged_setST.same_after_advance (List.forall_mem_singleton.mpr rfl))
  | cls =>
    obtain rfl := Host.Outcome.next.inj h
    exact .inr (onlyChanged_setFb.same_after_advance (List.forall_mem_singleton.mpr rfl))
  | drw =>
    obtain hl | rfl := execDrw_cases h
    · exact .inl hl
    · exact .inr ((onlyChanged_setFb.trans onlyChanged_setFlag).same_after_advance
        (by simp [Instr.mayWrite, Instr.writesFlag]))
  | ldB x =>
    obtain hl | ⟨-, rfl⟩ := execLdB_cases h
    · exact .inl hl
    · exact .inr ((onlyChanged_writeBytes (s := s.advance)).same_after_advance (mayWrite_bytesFrom s rfl))
  | dumpRegs x =>
    obtain hl | ⟨-, rfl⟩ := execDumpRegs_cases h
    · exact .inl hl
    · refine .inr ((onlyChanged_writeBytes (s := s.advance)).same_after_advance (mayWrite_bytesFrom s ?_))
      rw [s.length_firstRegs x.isLt]; rfl
  | jp | jpV0 =>
    obtain rfl := Host.Outcome.next.inj h
    exact .inr (onlyChanged_setPc.same_of_mayWrite_eq_false (List.forall_mem_singleton.mpr rfl))
  | seImm | sneImm | seReg | sneReg | skp | sknp =>
    obtain ⟨w, -, rfl⟩ := skipIf_cases h
    exact .inr (onlyChanged_setPc.same_of_mayWrite_eq_false (List.forall_mem_singleton.mpr rfl))
  | ret =>
    obtain hl | ⟨k, d, rfl⟩ := execRet_cases h
    · exact .inl hl
    · exact .inr ((onlyChanged_setDepth.trans onlyChanged_setPc).same_of_mayWrite_eq_false
        (by simp [Instr.mayWrite]))
  | call =>
    obtain hl | ⟨hd, d, rfl⟩ := execCall_cases h
    · exact .inl hl
    · exact .inr ((onlyChanged_setCalls.trans onlyChanged_setPc).same_of_mayWrite_eq_false
        (by simp [Instr.mayWrite]))

theorem LatchesLegal.exists_record {s t : State} (h : LatchesLegal s t) : ∃ r, t = { s with fault := some r } := by
  obtain ⟨r, -, -, ht⟩ := h
  exact ⟨r, ht⟩

/-- Settles O18, from the frame of each instruction. -/
theorem onlyTheWritersOfAnElementChangeIt : Obligations.OnlyTheWritersOfAnElementChangeIt := fun _ _ _ h =>
  (exec_frame h).imp_left LatchesLegal.exists_record

/-! ## VF -/

theorem flagByte_decide (p : Prop) [Decidable p] : flagByte (decide p) = if p then 1 else 0 := by
  by_cases h : p <;> simp [flagByte, h]

/-- VF holds the flag, written last, even where VF is the destination (R131). -/
theorem State.setResultFlag_vf (s : State) (x : RegIdx) (b : Byte) (f : Bool) :
    (s.setResultFlag x b f).reg 15 = flagByte f := by
  rw [s.setResultFlag_reg]; rfl

theorem State.setFlag_vf (s : State) (f : Bool) : (s.setFlag f).reg 15 = flagByte f := s.setReg_reg_same flagReg _

theorem flagByte_one_or_zero (f : Bool) : flagByte f = 1 ∨ flagByte f = 0 := by
  cases f <;> simp [flagByte]

/-- No collision before the first pixel, so DRW's flag is whether a set bit fell on a lit cell (R102). -/
theorem drawRows_hit_state (s : State) (ox oy n : Nat) : (drawRows s.mem s.I.toNat ox oy (s.fb, false) n).2 = true ↔
    ∃ row column, row < 32 ∧ column < 64 ∧ s.cell row column = true ∧ spriteCovers s ox oy n row column = true := by
  rw [drawRows_hit]
  exact or_iff_right Bool.false_ne_true

/-- An instruction that does not write the flag leaves VF alone unless it names it (R23). -/
theorem exec_keeps_vf {i : Instr} {s t : State} (h : exec i s = .next t) (hf : i.writesFlag = false) :
    (∃ r, t = { s with fault := some r }) ∨ i.namesDestination 15 = true ∨ t.reg 15 = s.reg 15 := by
  refine (exec_frame h).imp LatchesLegal.exists_record fun hsame => ?_
  cases hd : i.namesDestination 15 with
  | true => exact .inl rfl
  | false => exact .inr (hsame (.V 15) (by simp [Instr.mayWrite, hd, hf]))

/-- Settles O19: the six flag writers one by one, every other instruction by its frame. -/
theorem flagIsWrittenByExactlySixInstructions : Obligations.FlagIsWrittenByExactlySixInstructions := by
  intro i s t h
  cases i with
  | addReg x y =>
    obtain rfl := Host.Outcome.next.inj h
    exact .inr (by rw [State.setResultFlag_vf, carryOut_eq, flagByte_decide])
  | sub x y | subn x y =>
    obtain rfl := Host.Outcome.next.inj h
    exact .inr (by rw [State.setResultFlag_vf, noBorrow, flagByte_decide])
  | shr x y =>
    obtain rfl := Host.Outcome.next.inj h
    exact .inr (by rw [State.setResultFlag_vf, flagByte_toNat, shiftedOutRight_toNat])
  | shl x y =>
    obtain rfl := Host.Outcome.next.inj h
    exact .inr (by rw [State.setResultFlag_vf, flagByte_toNat, shiftedOutLeft_toNat])
  | drw x y n =>
    obtain hl | rfl := execDrw_cases h
    · exact .inl hl.exists_record
    · refine .inr ?_
      simp only [State.setFlag_vf]
      exact ⟨flagByte_one_or_zero _, (flagByte_eq_one _).trans (drawRows_hit_state ..)⟩
  | _ => exact exec_keeps_vf h rfl

/-! ## Elements a program cannot observe -/

/-- An element only a few instructions read or write, with a value put in its place (R29, R32, R33, R39). -/
inductive Hidden where
  | prevKeys (k : Word)
  | host (h : HostPort)
  | rng (n : Nat)
  | ST (b : Byte)
  | fb (f : Framebuffer)

/-- The state with that value in the element. -/
def Hidden.put : Hidden → State → State
  | .prevKeys k, s => { s with prevKeys := k }
  | .host h, s => { s with host := h }
  | .rng n, s => { s with rng := n }
  | .ST b, s => { s with ST := b }
  | .fb f, s => { s with fb := f }

/-- The instruction is none of those that read or overwrite the element. -/
def Hidden.UntouchedBy (i : Instr) : Hidden → Prop
  | .prevKeys _ => ∀ x, i ≠ .ldVxK x
  | .host _ => ∀ x, i ≠ .ldVxK x ∧ i ≠ .skp x ∧ i ≠ .sknp x
  | .rng _ => ∀ x nn, i ≠ .rnd x nn
  | .ST _ => ∀ x, i ≠ .ldSTVx x
  | .fb _ => i ≠ .cls ∧ ∀ x y n, i ≠ .drw x y n

theorem Hidden.pop_put (e : Hidden) (s : State) : (e.put s).pop = s.pop.map (Prod.map id e.put) := by
  have hsp : (e.put s).sp = s.sp := by cases e <;> rfl
  have hle := s.sp_le
  cases hd : s.sp.val with
  | zero => rw [State.pop_empty (Fin.ext hd), State.pop_empty (hsp.trans (Fin.ext hd))]; rfl
  | succ d =>
    rw [State.pop_entry hd (by omega), State.pop_entry ((congrArg Fin.val hsp).trans hd) (by omega)]
    cases e <;> rfl

theorem Hidden.push_put (e : Hidden) (s : State) (w : Word) : (e.put s).push w = (s.push w).map e.put := by
  have hsp : (e.put s).sp = s.sp := by cases e <;> rfl
  by_cases h : s.sp.val < 16
  · rw [State.push_room w h, State.push_room w (hsp ▸ h)]
    cases e <;> rfl
  · have hfull : s.sp = 16 := Fin.ext (Nat.le_antisymm s.sp_le (Nat.le_of_not_lt h))
    rw [State.push_full w hfull, State.push_full w (hsp.trans hfull)]; rfl

theorem Hidden.setPc_put (e : Hidden) (s : State) (w : Word) : (e.put s).setPc w = e.put (s.setPc w) := by
  cases e <;> rfl

theorem Hidden.raise_put (e : Hidden) (code : FaultCode) (opcode : Option Word) (access : Option (AccessKind × Word))
    (s : State) : raise code opcode access (e.put s) = onNext e.put (raise code opcode access s) := by
  cases e <;> rfl

theorem Hidden.execRet_put (e : Hidden) (s : State) : execRet (e.put s) = onNext e.put (execRet s) := by
  simp only [execRet, e.pop_put]
  cases s.pop with
  | none => exact e.raise_put ..
  | some p => exact congrArg Host.Outcome.next (e.setPc_put ..)

theorem Hidden.execCall_put (e : Hidden) (nnn : Addr12) (s : State) :
    execCall nnn (e.put s) = onNext e.put (execCall nnn s) := by
  have hpc : (e.put s).advance.pc = s.advance.pc := by cases e <;> rfl
  simp only [execCall, e.push_put, hpc]
  cases s.push s.advance.pc with
  | none => exact e.raise_put ..
  | some t => exact congrArg Host.Outcome.next (e.setPc_put ..)

/-- A skip whose condition does not read the element. -/
theorem Hidden.skipIf_put (e : Hidden) (taken : Bool) (s : State) :
    skipIf taken (e.put s) = onNext e.put (skipIf taken s) := by
  simp only [skipIf_eq]
  cases e <;> rfl

/-- A bounds check reads `I` only, and its fault names `pc` and `I` only. -/
theorem Hidden.boundsChecked_put (e : Hidden) {n : Nat} {kind : AccessKind} {opcode : Word} {s u u' : State}
    (hu : u' = e.put u) :
    (if (e.put s).accessOutside n then raiseAccess kind opcode (e.put s) else .next u') =
      onNext e.put (if s.accessOutside n then raiseAccess kind opcode s else .next u) := by
  have hout : (e.put s).accessOutside n = s.accessOutside n := by cases e <;> rfl
  have hraise : raiseAccess kind opcode (e.put s) = onNext e.put (raiseAccess kind opcode s) := by cases e <;> rfl
  rw [hout, hraise, hu]
  split <;> rfl

/-- A key wait whose changed keys are the same. -/
theorem Hidden.execLdVxK_put (e : Hidden) (x : RegIdx) {s : State} (hk : (e.put s).changedKeys = s.changedKeys) :
    execLdVxK x (e.put s) = onNext e.put (execLdVxK x s) := by
  simp only [execLdVxK, hk]
  split <;> cases e <;> rfl

/-- Putting a value into an element before an instruction that does not touch it is putting it there afterwards. -/
theorem exec_put {e : Hidden} {i : Instr} (hi : e.UntouchedBy i) (s : State) :
    exec i (e.put s) = onNext e.put (exec i s) := by
  cases i with
  | ret => exact e.execRet_put s
  | call nnn => exact e.execCall_put nnn s
  | ldB | dumpRegs | loadRegs => exact e.boundsChecked_put (by cases e <;> rfl)
  | seImm | sneImm | seReg | sneReg => cases e <;> exact Hidden.skipIf_put ..
  | skp x =>
    cases e with
    | host => exact absurd rfl (hi x).2.1
    | _ => exact Hidden.skipIf_put ..
  | sknp x =>
    cases e with
    | host => exact absurd rfl (hi x).2.2
    | _ => exact Hidden.skipIf_put ..
  | ldVxK x =>
    cases e with
    | prevKeys => exact absurd rfl (hi x)
    | host => exact absurd rfl (hi x).1
    | _ => exact Hidden.execLdVxK_put _ x rfl
  | rnd x nn =>
    cases e with
    | rng => exact absurd rfl (hi x nn)
    | _ => rfl
  | ldSTVx x =>
    cases e with
    | ST => exact absurd rfl (hi x)
    | _ => rfl
  | cls =>
    cases e with
    | fb => exact absurd rfl hi.1
    | _ => rfl
  | drw x y n =>
    cases e with
    | fb => exact absurd rfl (hi.2 x y n)
    | _ => exact Hidden.boundsChecked_put _ rfl
  | jp | jpV0 | ldImm | addImm | ldReg | orReg | andReg | xorReg | addReg | sub | shr | subn | shl | ldI | ldVxDT | ldDTVx
  | addI | ldF => cases e <;> rfl

/-- Settles O20: each clause is `exec_put` for one of the five elements. -/
theorem hiddenElementsReachOnlyTheirReaders : Obligations.HiddenElementsReachOnlyTheirReaders := fun _ s =>
  ⟨fun hi k => exec_put (e := .prevKeys k) hi s, fun hi h => exec_put (e := .host h) hi s,
    fun hi n => exec_put (e := .rng n) hi s, fun hi b => exec_put (e := .ST b) hi s,
    fun hcls hdrw f => exec_put (e := .fb f) ⟨hcls, hdrw⟩ s⟩

end Sys2Proof.Machine

/-! # Proofs, family 20_memory: a store inside memory and the fetch after it, O59 -/

namespace Sys2Proof.Machine

/-! ## The meanings with a bounds check, inside memory (R53) -/

/-- An access that ends inside memory is not refused. -/
theorem boundsChecked_inside {s u : State} {n : Nat} {kind : AccessKind} {opcode : Word} (h : s.I.toNat + n ≤ 4096) :
    (if s.accessOutside n then raiseAccess kind opcode s else .next u) = .next u := by
  rw [(s.accessOutside_false n).mpr (.inr h)]; rfl

theorem execLdB_inside {x : RegIdx} {s : State} (h : s.I.toNat + 3 ≤ 4096) :
    execLdB x s = .next (s.advance.setMem (s.mem.writeBytes s.I.toNat (bcdDigits (s.reg x)))) := boundsChecked_inside h

theorem execDumpRegs_inside {x : RegIdx} {s : State} (h : s.I.toNat + (x.val + 1) ≤ 4096) :
    execDumpRegs x s = .next (s.advance.setMem (s.mem.writeBytes s.I.toNat (s.firstRegs (x.val + 1)))) :=
  boundsChecked_inside h

/-! ## What the next step finds after a store (R54, R61) -/

/-- A storing instruction inside memory advances and leaves, at every address, the byte `byteAfter` gives. -/
theorem exec_store_inside {i : Instr} {n : Nat} {s : State} (hn : i.storeLength = some n) (h : s.I.toNat + n ≤ 4096) :
    ∃ m : Memory, exec i s = .next (s.advance.setMem m) ∧ ∀ a, m.read a = i.byteAfter s a := by
  cases i with
  | ldB x =>
    obtain rfl := Option.some.inj hn
    exact ⟨_, execLdB_inside h, read_after_digits s x⟩
  | dumpRegs x =>
    obtain rfl := Option.some.inj hn
    exact ⟨_, execDumpRegs_inside h, read_after_registers s x⟩
  | _ => cases hn

/-- The advance does not wrap where the next word still ends inside memory. -/
theorem State.advance_pc_toNat {s : State} (h : s.pc.toNat ≤ 4092) : s.advance.pc.toNat = s.pc.toNat + 2 := by
  have hlt : s.pc.toNat + 2 < 65536 := by omega
  rw [s.advance_pc, BitVec.toNat_add]
  exact Nat.mod_eq_of_lt hlt

/-- The fetch after an advance and a change of memory reads the new memory, two bytes on. -/
theorem fetch_advance_setMem {s : State} (m : Memory) (h : s.pc.toNat ≤ 4092) :
    fetch (s.advance.setMem m) = some (wordOfBytes (m.read (s.pc.toNat + 2)) (m.read (s.pc.toNat + 3))) := by
  have hpc : (s.advance.setMem m).pc.toNat = s.pc.toNat + 2 := State.advance_pc_toNat h
  rw [fetch_inside (by omega), State.opcodeAtPc, hpc, State.setMem_mem]

/-- Settles O59: the stored memory holds `byteAfter` at every address, and the fetch reads that memory. -/
theorem storedBytesAreFetchedNext : Obligations.StoredBytesAreFetchedNext := by
  intro i n s hn h
  obtain ⟨m, hexec, hread⟩ := exec_store_inside hn h
  refine ⟨s.advance.setMem m, hexec, hread, fun hpc => ?_⟩
  rw [fetch_advance_setMem m hpc, hread, hread]

end Sys2Proof.Machine

/-! # Proofs, family 30_encoding: decoder and encoder undo each other, O1 to O3 -/

namespace Sys2Proof

/-! ## What the decoder answers for a word put together in a format (R72, R74) -/

theorem decodeWord_formatNNN {f : BitVec 4} {nnn : Addr12} {mk : Addr12 → Instr}
    (h : ∀ {w : Word}, fieldFamily w = f → decodeWord w = .ok (mk (fieldNNN w))) :
    decodeWord (formatNNN f nnn) = .ok (mk nnn) := by
  rw [h (fieldFamily_formatNNN f nnn), fieldNNN_formatNNN]

theorem decodeWord_formatXNN {f : BitVec 4} {x : RegIdx} {nn : Byte} {mk : RegIdx → Byte → Instr}
    (h : ∀ {w : Word}, fieldFamily w = f → decodeWord w = .ok (mk (fieldX w) (fieldNN w))) :
    decodeWord (formatXNN f x nn) = .ok (mk x nn) := by
  rw [h (fieldFamily_formatXNN f x nn), fieldX_formatXNN, fieldNN_formatXNN]

/-- A family that has one instruction, for the low nibble 0 (R74). -/
theorem decodeWord_formatXY {f : BitVec 4} {x y : RegIdx} {mk : RegIdx → RegIdx → Instr}
    (h : ∀ {w : Word}, fieldFamily w = f →
      decodeWord w = if fieldN w = 0x0 then .ok (mk (fieldX w) (fieldY w)) else .error (.unrecognised w)) :
    decodeWord (formatXYN f x y 0x0) = .ok (mk x y) := by
  rw [h (fieldFamily_formatXYN f x y 0x0), if_pos (fieldN_formatXYN f x y 0x0), fieldX_formatXYN, fieldY_formatXYN]

theorem decodeWord_formatXYN_family8 (x y : RegIdx) (n : BitVec 4) :
    decodeWord (formatXYN 0x8 x y n) = decodeFamily8 (formatXYN 0x8 x y n) x y n := by
  rw [decodeWord_family8 (fieldFamily_formatXYN _ x y n), fieldX_formatXYN, fieldY_formatXYN, fieldN_formatXYN]

theorem decodeWord_formatXYN_familyD (x y : RegIdx) (n : BitVec 4) :
    decodeWord (formatXYN 0xD x y n) = .ok (.drw x y n.toNat) := by
  rw [decodeWord_familyD (fieldFamily_formatXYN _ x y n), fieldX_formatXYN, fieldY_formatXYN, fieldN_formatXYN]

theorem decodeWord_formatX_familyE (x : RegIdx) (low : Byte) :
    decodeWord (formatX 0xE x low) = decodeFamilyE (formatX 0xE x low) x low := by
  rw [formatX, decodeWord_familyE (fieldFamily_formatXNN _ x low), fieldX_formatXNN, fieldNN_formatXNN]

theorem decodeWord_formatX_familyF (x : RegIdx) (low : Byte) :
    decodeWord (formatX 0xF x low) = decodeFamilyF (formatX 0xF x low) x low := by
  rw [formatX, decodeWord_familyF (fieldFamily_formatXNN _ x low), fieldX_formatXNN, fieldNN_formatXNN]

/-! ## Decoding undoes encoding -/

/-- Where a family dispatches further, the fixed nibble or byte of the encoding selects the arm by evaluation. -/
theorem decodeWord_encode {i : Instr} (hi : i.wellFormed = true) : decodeWord (encode i) = .ok i := by
  cases i with
  | cls | ret => decide
  | jp => exact decodeWord_formatNNN decodeWord_family1
  | call => exact decodeWord_formatNNN decodeWord_family2
  | seImm => exact decodeWord_formatXNN decodeWord_family3
  | sneImm => exact decodeWord_formatXNN decodeWord_family4
  | seReg => exact decodeWord_formatXY decodeWord_family5
  | ldImm => exact decodeWord_formatXNN decodeWord_family6
  | addImm => exact decodeWord_formatXNN decodeWord_family7
  | ldReg x y | orReg x y | andReg x y | xorReg x y | addReg x y | sub x y | shr x y | subn x y | shl x y =>
    exact decodeWord_formatXYN_family8 x y _
  | sneReg => exact decodeWord_formatXY decodeWord_family9
  | ldI => exact decodeWord_formatNNN decodeWord_familyA
  | jpV0 => exact decodeWord_formatNNN decodeWord_familyB
  | rnd => exact decodeWord_formatXNN decodeWord_familyC
  | drw x y n =>
    have hn : n < 16 := of_decide_eq_true hi
    rw [encode, decodeWord_formatXYN_familyD, BitVec.toNat_ofNat, Nat.mod_eq_of_lt hn]
  | skp x | sknp x => exact decodeWord_formatX_familyE x _
  | ldVxDT x | ldVxK x | ldDTVx x | ldSTVx x | addI x | ldF x | ldB x | dumpRegs x | loadRegs x =>
    exact decodeWord_formatX_familyF x _

/-- The decoder reads an instruction's two bytes as its word and leaves the bytes after them (R51, R70). -/
theorem decode_encodeBytes_append (i : Instr) (rest : List Byte) :
    decode (encodeBytes i ++ rest) = (decodeWord (encode i)).map fun j => (j, rest) := by
  rw [← wordOfBytes_extract (encode i)]; rfl

/-! ## Encoding undoes decoding -/

theorem decodeFamily0_ok {w : Word} {i : Instr} (h : decodeFamily0 w = .ok i) :
    encode i = w ∧ i.wellFormed = true := by
  unfold decodeFamily0 at h
  split_ifs at h with h0 h1 <;> cases h
  · exact ⟨h0.symm, rfl⟩
  · exact ⟨h1.symm, rfl⟩

/-- Each arm of family 8 is the instruction whose encoding fixes the low nibble that selects it. -/
theorem decodeFamily8_ok {w : Word} {x y : RegIdx} {n : BitVec 4} {i : Instr} (h : decodeFamily8 w x y n = .ok i) :
    encode i = formatXYN 0x8 x y n ∧ i.wellFormed = true := by
  unfold decodeFamily8 at h
  split_ifs at h with hn hn hn hn hn hn hn hn hn <;> cases h <;> exact ⟨hn ▸ rfl, rfl⟩

theorem decodeFamilyE_ok {w : Word} {x : RegIdx} {nn : Byte} {i : Instr} (h : decodeFamilyE w x nn = .ok i) :
    encode i = formatXNN 0xE x nn ∧ i.wellFormed = true := by
  unfold decodeFamilyE at h
  split_ifs at h with hn hn <;> cases h <;> exact ⟨hn ▸ rfl, rfl⟩

theorem decodeFamilyF_ok {w : Word} {x : RegIdx} {nn : Byte} {i : Instr} (h : decodeFamilyF w x nn = .ok i) :
    encode i = formatXNN 0xF x nn ∧ i.wellFormed = true := by
  unfold decodeFamilyF at h
  split_ifs at h with hn hn hn hn hn hn hn hn hn <;> cases h <;> exact ⟨hn ▸ rfl, rfl⟩

section
variable {w : Word} {f : BitVec 4}

theorem formatNNN_of_fieldFamily (h : fieldFamily w = f) : formatNNN f (fieldNNN w) = w := h ▸ formatNNN_fields w

theorem formatXNN_of_fieldFamily (h : fieldFamily w = f) : formatXNN f (fieldX w) (fieldNN w) = w :=
  h ▸ formatXNN_fields w

theorem formatXYN_of_fieldFamily (h : fieldFamily w = f) : formatXYN f (fieldX w) (fieldY w) (fieldN w) = w :=
  h ▸ formatXYN_fields w

end

/-- The word a register-register family without a further dispatch accepts has the low nibble 0 (R74). -/
theorem formatXY_of_fieldFamily {w : Word} {f : BitVec 4} (h : fieldFamily w = f) (hn : fieldN w = 0x0) :
    formatXYN f (fieldX w) (fieldY w) 0x0 = w := hn ▸ formatXYN_of_fieldFamily h

/-- What is known of the instruction that a family's equation names holds of the one that was decoded. -/
theorem encode_of_decodeWord_eq {w : Word} {i j : Instr} (h : decodeWord w = .ok i) (hj : decodeWord w = .ok j)
    (he : encode j = w) (hw : j.wellFormed = true) : encode i = w ∧ i.wellFormed = true := by
  cases hj.symm.trans h
  exact ⟨he, hw⟩

/-- The families with one instruction put the word together from the fields they read; the others do it arm by arm. -/
theorem encode_of_decodeWord {w : Word} {i : Instr} (h : decodeWord w = .ok i) :
    encode i = w ∧ i.wellFormed = true := by
  rcases nibble_cases (fieldFamily w) with
    h0 | h1 | h2 | h3 | h4 | h5 | h6 | h7 | h8 | h9 | hA | hB | hC | hD | hE | hF
  · exact decodeFamily0_ok (decodeWord_family0 h0 ▸ h)
  · exact encode_of_decodeWord_eq h (decodeWord_family1 h1) (formatNNN_of_fieldFamily h1) rfl
  · exact encode_of_decodeWord_eq h (decodeWord_family2 h2) (formatNNN_of_fieldFamily h2) rfl
  · exact encode_of_decodeWord_eq h (decodeWord_family3 h3) (formatXNN_of_fieldFamily h3) rfl
  · exact encode_of_decodeWord_eq h (decodeWord_family4 h4) (formatXNN_of_fieldFamily h4) rfl
  · by_cases hn : fieldN w = 0x0
    · exact encode_of_decodeWord_eq h ((decodeWord_family5 h5).trans (if_pos hn)) (formatXY_of_fieldFamily h5 hn) rfl
    · cases h.symm.trans ((decodeWord_family5 h5).trans (if_neg hn))
  · exact encode_of_decodeWord_eq h (decodeWord_family6 h6) (formatXNN_of_fieldFamily h6) rfl
  · exact encode_of_decodeWord_eq h (decodeWord_family7 h7) (formatXNN_of_fieldFamily h7) rfl
  · rw [← formatXYN_of_fieldFamily h8]
    exact decodeFamily8_ok (decodeWord_family8 h8 ▸ h)
  · by_cases hn : fieldN w = 0x0
    · exact encode_of_decodeWord_eq h ((decodeWord_family9 h9).trans (if_pos hn)) (formatXY_of_fieldFamily h9 hn) rfl
    · cases h.symm.trans ((decodeWord_family9 h9).trans (if_neg hn))
  · exact encode_of_decodeWord_eq h (decodeWord_familyA hA) (formatNNN_of_fieldFamily hA) rfl
  · exact encode_of_decodeWord_eq h (decodeWord_familyB hB) (formatNNN_of_fieldFamily hB) rfl
  · exact encode_of_decodeWord_eq h (decodeWord_familyC hC) (formatXNN_of_fieldFamily hC) rfl
  · refine encode_of_decodeWord_eq h (decodeWord_familyD hD) ?_ (decide_eq_true (fieldN w).isLt)
    rw [encode, BitVec.ofNat_toNat, BitVec.setWidth_eq, formatXYN_of_fieldFamily hD]
  · rw [← formatXNN_of_fieldFamily hE]
    exact decodeFamilyE_ok (decodeWord_familyE hE ▸ h)
  · rw [← formatXNN_of_fieldFamily hF]
    exact decodeFamilyF_ok (decodeWord_familyF hF ▸ h)

/-! ## The statements -/

/-- Settles O2: the two bytes are read as the word of the instruction, which decodes to it. -/
theorem decodingAnEncodedInstructionGivesItBack : Obligations.DecodingAnEncodedInstructionGivesItBack := by
  intro i rest hi
  rw [decode_encodeBytes_append, decodeWord_encode hi]
  rfl

/-- Settles O3: family by family, `encode_of_decodeWord`. -/
theorem encodingADecodedWordGivesItBack : Obligations.EncodingADecodedWordGivesItBack := fun _ _ => encode_of_decodeWord

/-- Settles O1: eighteen closed words, decoded by evaluation. -/
theorem sampleWordsDecode : Obligations.SampleWordsDecode := by
  unfold Obligations.SampleWordsDecode
  decide

end Sys2Proof

/-! # Proofs, family 40_step_cycle: what the step event does and reports, and the halted machine, O5, O7, O12 -/

namespace Sys2Proof.Machine

/-! ## What the step event reports, by the state it ends in (R90) -/

theorem stepReport_fault {s t : State} {r : FaultRecord} (h : stepCore s = .next t) (ht : t.fault = some r) :
    stepReport s = .fault r := by
  simp only [stepReport, h, ht]

theorem stepReport_zeroWord {s t : State} (h : stepCore s = .next t) (ht : t.fault = none)
    (hz : fetch s = some 0x0000) : stepReport s = .halted := by
  simp only [stepReport, h, ht, if_pos hz]

theorem stepReport_executed {s t : State} (h : stepCore s = .next t) (ht : t.fault = none)
    (hz : fetch s ≠ some 0x0000) : stepReport s = .executed := by
  simp only [stepReport, h, ht, if_neg hz]

/-! ## A step while Faulted (R96) -/

theorem stepCore_faulted {s : State} {r : FaultRecord} (hf : s.fault = some r) : stepCore s = .next s := by
  simp only [stepCore, hf]

/-- Where a step starts, the record is the one that was latched. -/
theorem StepStarts.fault_eq {s s' : State} (h : StepStarts s s') : s'.fault = s.fault := by rw [h.core_eq]

/-- Settles O12: the step event answers the state it starts from, whose record it reports. -/
theorem stepWhileFaultedChangesNothing : Obligations.StepWhileFaultedChangesNothing := by
  intro s s' r hs hr
  have hf : s'.fault = some r := hs.fault_eq.trans hr
  have hcore : stepCore s' = .next s' := stepCore_faulted hf
  exact ⟨(step_of_starts hs).trans hcore, (reply_of_starts hs).trans (stepReport_fault hcore hf)⟩

/-! ## A step that runs an instruction (R90, R93 to R95) -/

theorem StepStarts.pc_eq {s s' : State} (h : StepStarts s s') : s'.pc = s.pc := by rw [h.core_eq]

theorem StepStarts.opcodeAtPc_eq {s s' : State} (h : StepStarts s s') : s'.opcodeAtPc = s.opcodeAtPc := by
  rw [h.core_eq]; rfl

/-- The decoder on two bytes is the decoder on the word they spell. -/
theorem decodeWord_of_decode {hi lo : Byte} {i : Instr} (h : decode [hi, lo] = .ok (i, [])) :
    decodeWord (wordOfBytes hi lo) = .ok i := by
  change (decodeWord (wordOfBytes hi lo)).map (fun j => (j, [])) = .ok (i, []) at h
  cases hd : decodeWord (wordOfBytes hi lo) with
  | error why => rw [hd] at h; cases h
  | ok j => rw [hd] at h; cases h; rfl

/-- A word that decodes to an instruction is not the halt sentinel (R78). -/
theorem ne_zero_of_decodeWord {w : Word} {i : Instr} (h : decodeWord w = .ok i) : w ≠ 0x0000 := by
  rintro rfl
  cases decodeWord_zero.symm.trans h

/-- No instruction touches the host's port. -/
theorem exec_keeps_host {i : Instr} {s t : State} (h : exec i s = .next t) : t.host = s.host := by
  obtain hl | hsame := exec_frame h
  · obtain ⟨r, rfl⟩ := hl.exists_record
    rfl
  · exact hsame .host rfl

/-- The latch takes the keys the step was given, since the instruction has left the port alone. -/
theorem latchKeys_exec {i : Instr} {s t : State} (h : exec i s = .next t) :
    latchKeys t = if t.fault = none then { t with prevKeys := s.host.keys } else t := by
  rw [latchKeys_eq, exec_keeps_host h]

theorem latchKeys_fault (s : State) : (latchKeys s).fault = s.fault := by
  rw [latchKeys_eq]; split <;> rfl

/-- Settles O5: the fetched word is nonzero, so the step event is the instruction and then the latch. -/
theorem stepRunsTheDecodedInstruction : Obligations.StepRunsTheDecodedInstruction := by
  intro s s' i hs hf hpc hdec
  have hf' : s'.fault = none := hs.fault_eq.trans hf
  have hpc' : s'.pc.toNat ≤ 4094 := by rwa [hs.pc_eq]
  have hd : decodeWord s'.opcodeAtPc = .ok i := hs.opcodeAtPc_eq ▸ decodeWord_of_decode hdec
  have h0 : s'.opcodeAtPc ≠ 0x0000 := ne_zero_of_decodeWord hd
  obtain ⟨t, ht⟩ := exec_next i s'
  have hcore : stepCore s' = .next (latchKeys t) := by rw [stepCore_exec hf' hpc' h0 hd, ht]; rfl
  refine ⟨?_, fun u hu => ?_⟩
  · rw [step_of_starts hs, hcore, latchKeys_exec ht, ht]
  · cases ht.symm.trans hu
    rw [reply_of_starts hs]
    cases hr : t.fault with
    | none =>
      refine stepReport_executed hcore ((latchKeys_fault t).trans hr) ?_
      rw [fetch_inside hpc']
      exact fun h => h0 (Option.some.inj h)
    | some r => exact stepReport_fault hcore ((latchKeys_fault t).trans hr)

/-! ## The halted machine (R92) -/

/-- No fault is latched and the word at `pc` is the halt sentinel. -/
structure State.Halted (s : State) : Prop where
  noFault  : s.fault = none
  inside   : s.pc.toNat ≤ 4094
  zeroWord : s.opcodeAtPc = 0x0000

theorem stepCore_halted {s : State} (hs : s.Halted) : stepCore s = .next (s.setPrevKeys s.host.keys) := by
  simp only [stepCore, hs.noFault, fetch_inside hs.inside, hs.zeroWord, if_true, latchKeys]

theorem stepReport_of_halted {s : State} (hs : s.Halted) : stepReport s = .halted :=
  stepReport_zeroWord (stepCore_halted hs) hs.noFault ((fetch_inside hs.inside).trans (congrArg some hs.zeroWord))

/-! What the host's events write to a halted machine -/

theorem OnlyChanged.refl (ws : List Element) (s : State) : OnlyChanged ws s s := fun e _ => by cases e <;> rfl

theorem OnlyChanged.mono {ws ws' : List Element} {s t : State} (h : OnlyChanged ws s t) (hsub : ws ⊆ ws') :
    OnlyChanged ws' s t := fun e he => h e fun hw => he (hsub hw)

theorem onlyChanged_setPrevKeys {s : State} {k : Word} : OnlyChanged [.prevKeys] s (s.setPrevKeys k) := fun e he => by
  cases e with
  | prevKeys => exact absurd (List.mem_singleton_self _) he
  | _ => rfl

theorem onlyChanged_setHost {s : State} {h : HostPort} : OnlyChanged [.host] s (s.setHost h) := fun e he => by
  cases e with
  | host => exact absurd (List.mem_singleton_self _) he
  | _ => rfl

theorem onlyChanged_tick (s : State) : OnlyChanged [.DT, .ST] s (tick s) := by
  unfold tick
  split
  · exact .refl _ s
  · exact onlyChanged_setDT.trans onlyChanged_setST

/-- Whether a machine is halted depends on memory, `pc` and the latch only. -/
theorem State.Halted.of_onlyChanged {s t : State} (hs : s.Halted)
    (h : OnlyChanged [.prevKeys, .DT, .ST, .host] s t) : t.Halted := by
  have hmem (a : Nat) : t.mem.read a = s.mem.read a := h (.mem a) (by simp)
  have hpc : t.pc = s.pc := h .pc (by decide)
  have hf : t.fault = s.fault := h .fault (by decide)
  refine ⟨hf.trans hs.noFault, hpc ▸ hs.inside, Eq.trans ?_ hs.zeroWord⟩
  simp only [State.opcodeAtPc, hpc, hmem]

/-- Of the events that write neither memory nor `pc`, a step latches the keys, a tick counts the timers down and `get_state`
writes nothing; none of them touches the port once it has been taken off it. -/
theorem runEvent_halted {e : HostEvent} {s : State} (he : e.writesNothing = true) (hs : s.Halted) :
    ∃ t, runEvent e s = .next t ∧ OnlyChanged [.prevKeys, .DT, .ST] s t := by
  cases e with
  | step keys => exact ⟨_, stepCore_halted hs, onlyChanged_setPrevKeys.mono (by simp)⟩
  | tick => exact ⟨_, rfl, (onlyChanged_tick s).mono (by simp)⟩
  | getState => exact ⟨s, rfl, .refl _ s⟩
  | reset | loadProgram | hostWrite => cases he

/-- The model's step by the event pending first, a step event included. -/
theorem step_of_pending {s : State} {e : HostEvent} {rest : List HostEvent} (h : s.host.pending = e :: rest) :
    step s = runEvent e (s.setHost ⟨keysDuring e s.host.keys, rest⟩) := by
  simp only [step, nextEvent, takeEvent, h, List.tail_cons]

/-- One event: it is taken off the list, and the machine is left as it was but for `prev_keys`, the timers and the port. -/
theorem step_halted {s : State} {e : HostEvent} {rest : List HostEvent} (h : s.host.pending = e :: rest)
    (he : e.writesNothing = true) (hs : s.Halted) :
    ∃ t, step s = .next t ∧ t.host.pending = rest ∧ OnlyChanged [.prevKeys, .DT, .ST, .host] s t := by
  have htake : OnlyChanged [.host] s (s.setHost ⟨keysDuring e s.host.keys, rest⟩) := onlyChanged_setHost
  obtain ⟨t, hrun, hframe⟩ := runEvent_halted he (hs.of_onlyChanged (htake.mono (by simp)))
  have hport : t.host = ⟨keysDuring e s.host.keys, rest⟩ := hframe .host (by decide)
  exact ⟨t, (step_of_pending h).trans hrun, congrArg HostPort.pending hport, (htake.trans hframe).mono (by simp)⟩

/-- Any number of events, by induction on the list: each leaves the machine halted. -/
theorem runSteps_halted {events rest : List HostEvent} {s : State} (h : s.host.pending = events ++ rest)
    (he : ∀ e ∈ events, e.writesNothing = true) (hs : s.Halted) :
    ∃ t, runSteps events.length s = .next t ∧ t.host.pending = rest ∧
      OnlyChanged [.prevKeys, .DT, .ST, .host] s t := by
  induction events generalizing s with
  | nil => exact ⟨s, rfl, h, .refl _ s⟩
  | cons e events ih =>
    obtain ⟨hfirst, hlater⟩ := List.forall_mem_cons.mp he
    obtain ⟨u, hstep, hpending, hsu⟩ := step_halted h hfirst hs
    obtain ⟨t, hrun, hrest, hut⟩ := ih hpending hlater (hs.of_onlyChanged hsu)
    exact ⟨t, (runSteps_succ _ hstep).trans hrun, hrest, (hsu.trans hut).mono (by simp)⟩

/-- Settles O7: after the events the machine is halted still, so a step that comes next reports it. -/
theorem haltedMachineStaysHalted : Obligations.HaltedMachineStaysHalted := by
  intro events rest s h he hf hpc hz
  have hs : s.Halted := ⟨hf, hpc, hz⟩
  obtain ⟨t, hrun, hrest, hframe⟩ := runSteps_halted h he hs
  have ht : t.Halted := hs.of_onlyChanged hframe
  refine ⟨t, hrun, hframe, ht.zeroWord, fun keys later hnext => ?_⟩
  have hport : OnlyChanged [.host] t (t.setHost ⟨keys, later⟩) := onlyChanged_setHost
  exact (reply_of_starts (.inr ⟨keys, later, hrest.trans hnext, rfl⟩)).trans
    (stepReport_of_halted (ht.of_onlyChanged (hport.mono (by simp))))

end Sys2Proof.Machine

/-! # Proofs, family 41_display: CLS and DRW, and the same sprite drawn twice, O29, O30, O32 -/

namespace Sys2Proof.Machine

/-! ## CLS (R100) -/

/-- Settles O29: the word decodes by its own row, and the frame is that of the two updates CLS makes. -/
theorem clsDarkensEveryCell : Obligations.ClsDarkensEveryCell :=
  ⟨rfl, fun _ => ⟨_, rfl, rfl, fun k => Vector.getElem_replicate k.isLt, onlyChanged_advance.trans onlyChanged_setFb⟩⟩

/-! ## DRW inside memory (R102) -/

/-- The sprite at `I` over the framebuffer of `s`, its origin read from `V[x]` and `V[y]` (R101), and whether it collides. -/
def State.drawing (s : State) (x y : RegIdx) (n : Nat) : Canvas :=
  drawRows s.mem s.I.toNat (originColumn (s.reg x)) (originRow (s.reg y)) (s.fb, false) n

/-- DRW with no row, or with its last row inside memory, completes with the sprite drawn and the flag written last (D5). -/
theorem execDrw_inside {x y : RegIdx} {n : Nat} {s : State} (h : n = 0 ∨ s.I.toNat + n ≤ 4096) :
    execDrw x y n s = .next ((s.advance.setFb (s.drawing x y n).1).setFlag (s.drawing x y n).2) := by
  unfold execDrw
  rw [(s.accessOutside_false n).mpr h]
  rfl

theorem State.cellAt_drawing (s : State) (x y : RegIdx) (n : Nat) {row column : Nat} (hr : row < 32) (hc : column < 64) :
    cellAt (s.drawing x y n).1 row column =
      (s.cell row column ^^ spriteCovers s ((s.reg x).toNat % 64) ((s.reg y).toNat % 32) n row column) :=
  drawRows_cell _ _ _ _ _ _ hr hc

/-- Settles O30: the framebuffer by its cells, the flag by the collision, the frame by the three updates made. -/
theorem drwXorsTheSpriteAndReportsCollision : Obligations.DrwXorsTheSpriteAndReportsCollision := by
  intro x y n s h
  refine ⟨_, execDrw_inside h, rfl, ?cells, ?flagBit, ?collision, ?frame⟩
  case cells => exact fun _ _ hr hc => s.cellAt_drawing x y n hr hc
  case flagBit => rw [State.setFlag_vf]; exact flagByte_one_or_zero _
  case collision => rw [State.setFlag_vf, flagByte_eq_one]; exact drawRows_hit_state ..
  case frame => exact (onlyChanged_advance.trans onlyChanged_setFb).trans onlyChanged_setFlag

/-! ## The same sprite a second time (R103) -/

/-- A sprite covers the same cells as long as `I` and memory read the same. -/
theorem spriteCovers_of_onlyChanged {ws : List Element} {s t : State} (h : OnlyChanged ws s t) (hI : .I ∉ ws)
    (hmem : ∀ a, .mem a ∉ ws) : spriteCovers t = spriteCovers s := by
  have hI : t.I = s.I := h .I hI
  have hread : ∀ a, t.mem.read a = s.mem.read a := fun a => h (.mem a) (hmem a)
  funext ox oy n row column
  simp only [spriteCovers, coveredBy, hI, hread]

/-- Settles O32: DRW changes nothing its own sprite depends on, so the second draw XORs the same cells again, and a cell the first
lit is one the second clears. -/
theorem drawingTwiceRestoresTheFramebuffer : Obligations.DrawingTwiceRestoresTheFramebuffer := by
  intro x y n s hx hy hin
  obtain ⟨t, hst, -, hcell, -, -, hframe⟩ := drwXorsTheSpriteAndReportsCollision x y n s hin
  have hI : t.I = s.I := hframe .I (by decide)
  obtain ⟨u, htu, -, hcell', -, hflag, -⟩ := drwXorsTheSpriteAndReportsCollision x y n t (hI ▸ hin)
  have hregx : t.reg x = s.reg x := hframe (.V x) (by simp [hx])
  have hregy : t.reg y = s.reg y := hframe (.V y) (by simp [hy])
  have hcovers : spriteCovers t = spriteCovers s := spriteCovers_of_onlyChanged hframe (by decide) (by simp)
  rw [hregx, hregy, hcovers] at hcell' hflag
  refine ⟨t, u, hst, htu, fb_ext fun row column hr hc => ?restored, ?collides⟩
  case restored =>
    calc u.cell row column
        = (t.cell row column ^^ spriteCovers s _ _ n row column) := hcell' row column hr hc
      _ = s.cell row column := by rw [hcell row column hr hc, Bool.xor_assoc, Bool.xor_self, Bool.xor_false]
  case collides =>
    rintro ⟨row, column, hr, hc, hdark, hlit⟩
    have hcovered := hcell row column hr hc
    rw [hdark, hlit, Bool.false_xor] at hcovered
    exact hflag.mpr ⟨row, column, hr, hc, hlit, hcovered.symm⟩

end Sys2Proof.Machine

/-! # Proofs, family 42_control_flow: RET, JP and the six skips, O33 to O35, O40 to O42 -/

namespace Sys2Proof

/-- A register-register family with one instruction, for every low nibble (R74): the fields come back, and a nibble other than 0
is turned away with the whole word (D14). -/
theorem decodeWord_formatXYN {f : BitVec 4} {mk : RegIdx → RegIdx → Instr}
    (h : ∀ {w : Word}, fieldFamily w = f →
      decodeWord w = if fieldN w = 0x0 then .ok (mk (fieldX w) (fieldY w)) else .error (.unrecognised w))
    (x y : RegIdx) (n : BitVec 4) : decodeWord (formatXYN f x y n) =
      if n = 0 then .ok (mk x y) else .error (.unrecognised (formatXYN f x y n)) := by
  rw [h (fieldFamily_formatXYN f x y n), fieldN_formatXYN, fieldX_formatXYN, fieldY_formatXYN]

/-- The condition of a skip is read from the registers and the keys, never from memory (R120). -/
theorem Instr.skipCondition_setMem (i : Instr) (s : Machine.State) (m : Machine.Memory) :
    i.skipCondition (s.setMem m) = i.skipCondition s := by
  cases i <;> rfl

end Sys2Proof

namespace Sys2Proof.Machine

/-! ## RET (R110) -/

theorem execRet_empty {s : State} (h : s.sp = 0) :
    execRet s = .next { s with fault := some ⟨.stackUnderflow, s.pc, some (encode .ret), none, none⟩ } := by
  simp only [execRet, State.pop_empty h, raise_eq, Option.map_none]

theorem execRet_entry {s : State} {d : Nat} (h : s.sp.val = d + 1) (hd : d < 16) :
    execRet s = .next ((s.setCalls s.stack ⟨d, Nat.lt_succ_of_lt hd⟩).setPc s.stack[d]) := by
  simp only [execRet, State.pop_entry h hd]

/-- Settles O33: the pop moves the depth only, then the entry becomes `pc`. -/
theorem retPopsTheNewestEntry : Obligations.RetPopsTheNewestEntry := by
  intro s d h
  exact ⟨_, execRet_entry h d.isLt, rfl, rfl, (onlyChanged_setDepth.trans onlyChanged_setPc).mono (by simp)⟩

/-- Settles O34: there is nothing to pop, so the record is latched in the state as the step began. -/
theorem retOnEmptyStackRaises : Obligations.RetOnEmptyStackRaises := fun _ => execRet_empty

/-! ## JP (R111) -/

/-- Settles O35: the decoder gives the target back, and JP is one update of `pc`. -/
theorem jpSetsPc : Obligations.JpSetsPc :=
  ⟨fun _ => decodeWord_formatNNN decodeWord_family1, fun nnn _ => ⟨_, rfl, wordOfAddr_toNat nnn, onlyChanged_setPc⟩⟩

/-! ## The six skips (R114 to R120) -/

/-- Every skip is the shared effect under its own condition. -/
theorem exec_skip {i : Instr} {s : State} {taken : Bool} (h : i.skipCondition s = some taken) :
    exec i s = .next (s.setPc (if taken then s.pc + 4 else s.pc + 2)) := by
  rw [← skipIf_eq]
  cases i with
  | seImm | seReg | skp | sknp =>
    obtain rfl := Option.some.inj h
    rfl
  | sneImm | sneReg =>
    obtain rfl := Option.some.inj h
    rw [decide_not]
    rfl
  | _ => cases h

/-- A skip past the last slot leaves `pc` where no word can be fetched (R91). -/
theorem fetch_setPc_past_end {s : State} (h : s.pc.toNat = 4094) :
    (s.pc + 4).toNat = 4098 ∧ fetch (s.setPc (s.pc + 4)) = none := by
  have hpc : (s.pc + 4).toNat = 4098 := by bv_omega
  exact ⟨hpc, fetch_outside (by rw [State.setPc_pc, hpc]; decide)⟩

/-- Settles O40: with other memory the condition is the same, hence the effect too. -/
theorem sixSkipsShareOneEffect : Obligations.SixSkipsShareOneEffect := by
  intro i s taken h
  refine ⟨exec_skip h, fun m => exec_skip ((i.skipCondition_setMem s m).trans h), ?lastSlot⟩
  rintro hpc rfl
  exact ⟨_, exec_skip h, fetch_setPc_past_end hpc⟩

section
variable {i : Instr} {s : State} {p : Prop} [Decidable p]

/-- A skip taken when `p` holds. -/
theorem exec_skip_when (h : i.skipCondition s = some (decide p)) :
    ∃ t, exec i s = .next t ∧ t.pc = (if p then s.pc + 4 else s.pc + 2) ∧ OnlyChanged [.pc] s t :=
  ⟨_, exec_skip h, by simp only [State.setPc_pc, decide_eq_true_eq], onlyChanged_setPc⟩

/-- A skip taken when `p` fails. -/
theorem exec_skip_unless (h : i.skipCondition s = some (decide ¬p)) :
    ∃ t, exec i s = .next t ∧ t.pc = (if p then s.pc + 2 else s.pc + 4) ∧ OnlyChanged [.pc] s t := by
  rw [← ite_not p]
  exact exec_skip_when h

end

/-- Settles O41, by the format of the words and the condition of each skip. -/
theorem skipsOnALiteral : Obligations.SkipsOnALiteral :=
  ⟨fun _ _ => ⟨decodeWord_formatXNN decodeWord_family3, decodeWord_formatXNN decodeWord_family4⟩,
    fun _ _ _ => ⟨exec_skip_when rfl, exec_skip_unless rfl⟩⟩

/-- Settles O42, by the format of the words and the condition of each skip. -/
theorem skipsOnARegister : Obligations.SkipsOnARegister :=
  ⟨decodeWord_formatXYN decodeWord_family5, decodeWord_formatXYN decodeWord_family9,
    fun _ _ _ => ⟨exec_skip_when rfl, exec_skip_unless rfl⟩⟩

end Sys2Proof.Machine

/-! # Proofs, family 43_arithmetic_logic: ADD, SUB, SUBN, OR, AND and XOR on registers, O44, O45, O47, O48 -/

namespace Sys2Proof.Machine

section
variable {i : Instr} {x y : RegIdx} {s : State} {b : Byte}

/-! ## What an instruction does that writes one result, without and with a flag (R130, R131) -/

theorem exec_setReg (h : exec i s = .next (s.advance.setReg x b)) :
    ∃ t, exec i s = .next t ∧ t.pc = s.pc + 2 ∧ t.reg x = b ∧ OnlyChanged [.pc, .V x] s t :=
  ⟨_, h, rfl, State.setReg_reg_same _ x b, onlyChanged_advance.trans onlyChanged_setReg⟩

theorem State.setResultFlag_reg_result (f : Bool) (hx : x ≠ flagReg) : (s.setResultFlag x b f).reg x = b := by
  rw [State.setResultFlag_reg, if_neg hx, if_pos rfl]

/-- The flag is written last, so the result stands where VF is not the destination and the flag stands everywhere (D5). -/
theorem exec_setResultFlag {f : Bool} {p : Prop} [Decidable p] {n : Nat}
    (h : exec i s = .next (s.advance.setResultFlag x b f)) (hb : b.toNat = n) (hf : f = decide p) :
    ∃ t, exec i s = .next t ∧ t.pc = s.pc + 2 ∧ (x ≠ 15 → (t.reg x).toNat = n) ∧
      (t.reg 15 = if p then 1 else 0) ∧ OnlyChanged [.pc, .V x, .V 15] s t := by
  refine ⟨_, h, rfl, fun hx => ?result, ?flag, onlyChanged_advance.trans onlyChanged_setResultFlag⟩
  case result => rw [State.setResultFlag_reg_result f hx, hb]
  case flag => rw [State.setResultFlag_vf, hf, flagByte_decide]

/-- An operation that works bit by bit gives a result that is read bit by bit. -/
theorem exec_bitwise {op : Byte → Byte → Byte} {bit : Bool → Bool → Bool}
    (hop : ∀ a b k, (op a b).getLsbD k = bit (a.getLsbD k) (b.getLsbD k))
    (h : exec i s = .next (s.advance.setReg x (op (s.reg x) (s.reg y)))) :
    ∃ t, exec i s = .next t ∧ t.pc = s.pc + 2 ∧ OnlyChanged [.pc, .V x] s t ∧
      ∀ k, (t.reg x).getLsbD k = bit ((s.reg x).getLsbD k) ((s.reg y).getLsbD k) := by
  obtain ⟨t, ht, hpc, hreg, hframe⟩ := exec_setReg h
  exact ⟨t, ht, hpc, hframe, fun k => hreg ▸ hop _ _ k⟩

end

/-! ## The statements -/

/-- Settles O44: the decoder gives the literal back, and byte addition is addition modulo 256. -/
theorem addLiteralWrapsWithoutFlag : Obligations.AddLiteralWrapsWithoutFlag := by
  refine ⟨fun _ _ => decodeWord_formatXNN decodeWord_family7, fun x nn s => ?_⟩
  obtain ⟨t, ht, hpc, hreg, hframe⟩ := exec_setReg (i := .addImm x nn) (s := s) rfl
  exact ⟨t, ht, hpc, hreg ▸ BitVec.toNat_add _ _, hframe⟩

/-- Settles O45: the low byte of the 9-bit sum is the result and its bit 8 the flag. -/
theorem addRegistersSetsCarry : Obligations.AddRegistersSetsCarry := fun _ _ _ =>
  exec_setResultFlag rfl (sumByte_toNat _ _) (carryOut_eq _ _)

/-- Settles O47: SUBN is SUB with the operands exchanged. -/
theorem subtractionsSetNoBorrow : Obligations.SubtractionsSetNoBorrow := fun _ _ _ =>
  ⟨exec_setResultFlag rfl (differenceByte_toNat _ _) rfl, exec_setResultFlag rfl (differenceByte_toNat _ _) rfl⟩

/-- Settles O48: the low nibble selects the operation, and each operation works bit by bit. -/
theorem logicOperationsWorkBitwiseWithoutFlag : Obligations.LogicOperationsWorkBitwiseWithoutFlag :=
  ⟨fun x y => ⟨decodeWord_formatXYN_family8 x y 0x1, decodeWord_formatXYN_family8 x y 0x2,
      decodeWord_formatXYN_family8 x y 0x3⟩,
    fun _ _ _ => ⟨exec_bitwise (op := (· ||| ·)) (bit := (· || ·)) (fun _ _ _ => BitVec.getLsbD_or) rfl,
      exec_bitwise (op := (· &&& ·)) (bit := (· && ·)) (fun _ _ _ => BitVec.getLsbD_and) rfl,
      exec_bitwise (op := (· ^^^ ·)) (bit := (· ^^ ·)) (fun _ _ _ => BitVec.getLsbD_xor) rfl⟩⟩

end Sys2Proof.Machine

/-! # Proofs, family 45_random_timers_keys: the moves between a timer and a register, O52 -/

namespace Sys2Proof.Machine

/-! ## What an instruction does that writes one timer (R162, R163) -/

section
variable {i : Instr} {s : State} {b : Byte}

theorem exec_setDT (h : exec i s = .next (s.advance.setDT b)) :
    ∃ t, exec i s = .next t ∧ t.pc = s.pc + 2 ∧ t.DT = b ∧ OnlyChanged [.pc, .DT] s t :=
  ⟨_, h, rfl, rfl, onlyChanged_advance.trans onlyChanged_setDT⟩

theorem exec_setST (h : exec i s = .next (s.advance.setST b)) :
    ∃ t, exec i s = .next t ∧ t.pc = s.pc + 2 ∧ t.ST = b ∧ OnlyChanged [.pc, .ST] s t :=
  ⟨_, h, rfl, rfl, onlyChanged_advance.trans onlyChanged_setST⟩

end

/-- Settles O52: the low byte selects the move in family F, and each move is the advance and one write. -/
theorem timerMovesCopy : Obligations.TimerMovesCopy :=
  ⟨fun x => ⟨decodeWord_formatX_familyF x 0x07, decodeWord_formatX_familyF x 0x15, decodeWord_formatX_familyF x 0x18⟩,
    fun _ _ => ⟨exec_setReg rfl, exec_setDT rfl, exec_setST rfl⟩⟩

end Sys2Proof.Machine

/-! # Proofs, family 60_exceptions: what raises a fault and with which code, and the Faulted machine, O9, O13, O14, O28, O37 -/

namespace Sys2Proof

/-! ## Words outside the opcode map (R76, R77) -/

/-- Every instruction's word lies in its row of the map, collected from the laws instruction by instruction. -/
theorem tableRow_statement : ∀ i : Instr, Laws.TableRow.Statement i
  | .cls => Laws.TableRow.cls
  | .ret => Laws.TableRow.ret
  | .jp nnn => Laws.TableRow.jp nnn
  | .call nnn => Laws.TableRow.call nnn
  | .seImm x nn => Laws.TableRow.seImm x nn
  | .sneImm x nn => Laws.TableRow.sneImm x nn
  | .seReg x y => Laws.TableRow.seReg x y
  | .ldImm x nn => Laws.TableRow.ldImm x nn
  | .addImm x nn => Laws.TableRow.addImm x nn
  | .ldReg x y => Laws.TableRow.ldReg x y
  | .orReg x y => Laws.TableRow.orReg x y
  | .andReg x y => Laws.TableRow.andReg x y
  | .xorReg x y => Laws.TableRow.xorReg x y
  | .addReg x y => Laws.TableRow.addReg x y
  | .sub x y => Laws.TableRow.sub x y
  | .shr x y => Laws.TableRow.shr x y
  | .subn x y => Laws.TableRow.subn x y
  | .shl x y => Laws.TableRow.shl x y
  | .sneReg x y => Laws.TableRow.sneReg x y
  | .ldI nnn => Laws.TableRow.ldI nnn
  | .jpV0 nnn => Laws.TableRow.jpV0 nnn
  | .rnd x nn => Laws.TableRow.rnd x nn
  | .drw x y n => Laws.TableRow.drw x y n
  | .skp x => Laws.TableRow.skp x
  | .sknp x => Laws.TableRow.sknp x
  | .ldVxDT x => Laws.TableRow.ldVxDT x
  | .ldVxK x => Laws.TableRow.ldVxK x
  | .ldDTVx x => Laws.TableRow.ldDTVx x
  | .ldSTVx x => Laws.TableRow.ldSTVx x
  | .addI x => Laws.TableRow.addI x
  | .ldF x => Laws.TableRow.ldF x
  | .ldB x => Laws.TableRow.ldB x
  | .dumpRegs x => Laws.TableRow.dumpRegs x
  | .loadRegs x => Laws.TableRow.loadRegs x

/-- A word that decodes is the word of an instruction, so it matches that instruction's row. -/
theorem exists_row_of_decodeWord {w : Word} {i : Instr} (h : decodeWord w = .ok i) :
    ∃ row ∈ opcodeMap, w &&& row.mask = row.matchBits := by
  obtain ⟨row, hrow, -, hbits⟩ := tableRow_statement i
  rw [(encode_of_decodeWord h).1] at hbits
  exact ⟨row, hrow, hbits⟩

theorem decodeWord_error_of_no_row {w : Word} (h : ∀ row ∈ opcodeMap, w &&& row.mask ≠ row.matchBits) :
    ∃ why, decodeWord w = .error why := by
  cases hd : decodeWord w with
  | error why => exact ⟨why, rfl⟩
  | ok i =>
    obtain ⟨row, hrow, hbits⟩ := exists_row_of_decodeWord hd
    exact absurd hbits (h row hrow)

end Sys2Proof

namespace Sys2Proof.Machine

/-! ## While Faulted (R182) -/

/-- Each event but reset looks at the latch first and then does nothing. -/
theorem runEvent_faulted {e : HostEvent} {s : State} {r : FaultRecord} (hf : s.fault = some r) (he : e ≠ .reset) :
    runEvent e s = .next s := by
  cases e with
  | reset => exact absurd rfl he
  | step keys => exact stepCore_faulted hf
  | tick => simp only [runEvent, tick, hf]
  | loadProgram bytes => simp only [runEvent, loadProgram, hf]
  | hostWrite addr byte => simp only [runEvent, hostWrite, hf]
  | getState => rfl

theorem loadReport_faulted {s : State} {r : FaultRecord} (bytes : List Byte) (hf : s.fault = some r) :
    loadReport bytes s = .fault r := by
  simp only [loadReport, hf]

/-- A reset comes next only from the host's list: with nothing pending the next event is a step. -/
theorem nextEvent_ne_reset {s : State} (h : ∀ rest, s.host.pending ≠ .reset :: rest) : nextEvent s ≠ .reset := by
  unfold nextEvent
  cases hp : s.host.pending with
  | nil => exact nofun
  | cons e rest => rintro rfl; exact h rest hp

/-- Settles O13: all that the step does is to take the event off the port. -/
theorem onlyResetLeavesTheFaultedCondition : Obligations.OnlyResetLeavesTheFaultedCondition := by
  intro s t r hf hnext ht
  have hstep : step s = .next (takeEvent s) := runEvent_faulted (s := takeEvent s) hf (nextEvent_ne_reset hnext)
  cases hstep.symm.trans ht
  exact ⟨rfl, rfl, fun bytes rest hp => (reply_of_event hp nofun).trans (loadReport_faulted bytes hf)⟩

/-! ## What each condition latches (R184 to R188) -/

theorem stepCore_undecodable {s : State} {why : DecodeReject} (hf : s.fault = none) (hpc : s.pc.toNat ≤ 4094)
    (h0 : s.opcodeAtPc ≠ 0x0000) (hd : decodeWord s.opcodeAtPc = .error why) :
    stepCore s = .next { s with fault := some ⟨.decodeError, s.pc, some s.opcodeAtPc, none, none⟩ } := by
  simp only [stepCore, hf, fetch_inside hpc, if_neg h0, hd, raise_eq, Option.map_none]

theorem stepCore_fetch_outside {s : State} (hf : s.fault = none) (hpc : 4094 < s.pc.toNat) :
    stepCore s = .next { s with fault := some ⟨.executionFault, s.pc, none, some .fetch, some s.pc⟩ } := by
  simp only [stepCore, hf, fetch_outside hpc, raise_eq, Option.map_some]

/-- A step event that latches a record reports it. -/
theorem step_and_reply_of_latch {s s' : State} {r : FaultRecord} (hs : StepStarts s s')
    (h : stepCore s' = .next { s' with fault := some r }) :
    step s = .next { s' with fault := some r } ∧ reply s = .fault r :=
  ⟨(step_of_starts hs).trans h, (reply_of_starts hs).trans (stepReport_fault h rfl)⟩

/-- Settles O9: no row, no instruction; the decoder turns the word away and the step raises. -/
theorem unrecognisedWordRaisesDecodeError : Obligations.UnrecognisedWordRaisesDecodeError := by
  intro s s' hs hf hpc h0 hrows
  obtain ⟨why, hd⟩ := decodeWord_error_of_no_row hrows
  rw [← hs.fault_eq] at hf
  rw [← hs.pc_eq] at hpc ⊢
  rw [← hs.opcodeAtPc_eq] at h0 hd ⊢
  exact step_and_reply_of_latch hs (stepCore_undecodable hf hpc h0 hd)

/-- Settles O37: there is no room to push, so the record is latched in the state as the step began. -/
theorem callOnFullStackRaises : Obligations.CallOnFullStackRaises := by
  intro nnn s h
  change execCall nnn s = _
  simp only [execCall, State.push_full _ h, raise_eq, Option.map_none, encode]

/-- An access with a byte outside memory is refused (R53). -/
theorem boundsChecked_outside {s u : State} {n : Nat} {kind : AccessKind} {opcode : Word} (hn : 1 ≤ n)
    (h : 4096 < s.I.toNat + n) : (if s.accessOutside n then raiseAccess kind opcode s else .next u) =
      .next { s with fault := some ⟨.executionFault, s.pc, some opcode, some kind, some s.maxI4096⟩ } := by
  rw [if_pos ((s.accessOutside_iff n).mpr ⟨hn, h⟩), raiseAccess_eq]

/-! ## The fault-code table (R190) -/

theorem Condition.number_latched_ne_zero (code : FaultCode) : (Condition.latched code).number ≠ 0 := by
  cases code <;> decide

theorem State.condition_number_eq_zero (s : State) : s.condition.number = 0 ↔ s.fault = none := by
  unfold State.condition
  cases s.fault with
  | none => exact iff_of_true rfl rfl
  | some r => exact iff_of_false (Condition.number_latched_ne_zero r.code) nofun

/-- An instruction that raises ends in a state whose code is that of the record. -/
theorem Raises.number {i : Instr} {s : State} {r : FaultRecord} (h : Raises i s r) :
    ∃ t, exec i s = .next t ∧ t.condition.number = (Condition.latched r.code).number := ⟨_, h, rfl⟩

/-- A step that latches a record and reports it shows the record's code in both. -/
theorem step_number_of_latch {s s' : State} {r : FaultRecord}
    (h : step s = .next { s' with fault := some r } ∧ reply s = .fault r) :
    ∃ t, step s = .next t ∧ t.condition.number = (Condition.latched r.code).number ∧
      (reply s).condition.number = (Condition.latched r.code).number :=
  ⟨_, h.1, rfl, h.2 ▸ rfl⟩

/-- More than 3584 bytes do not fit from 512 on: nothing is loaded, and the report is LoadError (R189, D17). -/
theorem loadProgram_tooLong {s : State} {bytes : List Byte} (hf : s.fault = none) (h : 3584 < bytes.length) :
    loadProgram bytes s = s ∧ loadReport bytes s = .loadError := by
  have hfits : ¬ programFits bytes = true := by
    simp only [programFits, Config.programBase, Config.memSize, decide_eq_true_eq]
    omega
  simp only [loadProgram, loadReport, hf, if_neg hfits, and_self]

theorem step_and_reply_of_loadProgram_tooLong {s : State} {bytes : List Byte} {rest : List HostEvent}
    (hp : s.host.pending = .loadProgram bytes :: rest) (hf : s.fault = none) (h : 3584 < bytes.length) :
    step s = .next { s with host := ⟨s.host.keys, rest⟩ } ∧ reply s = .loadError := by
  obtain ⟨hload, hreport⟩ := loadProgram_tooLong (s := { s with host := ⟨s.host.keys, rest⟩ }) hf h
  exact ⟨(step_of_event hp nofun).trans (congrArg Host.Outcome.next hload), (reply_of_event hp nofun).trans hreport⟩

/-- Settles O14: the code of each condition is that of the record it latches. -/
theorem faultConditionsCarryTheirCodes : Obligations.FaultConditionsCarryTheirCodes := by
  refine ⟨State.condition_number_eq_zero, ?unrecognised, ?call, ?ret, rfl, ?fetch, ?drw, ?ldB, ?ranges, ?load⟩
  case unrecognised =>
    intro s s' hs hf hpc h0 hrows
    exact step_number_of_latch (unrecognisedWordRaisesDecodeError s s' hs hf hpc h0 hrows)
  case call => exact fun nnn s h => (callOnFullStackRaises nnn s h).number
  case ret => exact fun s h => (retOnEmptyStackRaises s h).number
  case fetch =>
    intro s s' hs hf hpc
    have hcore := stepCore_fetch_outside (hs.fault_eq.trans hf) (hs.pc_eq.symm ▸ hpc)
    exact step_number_of_latch (step_and_reply_of_latch hs hcore)
  case drw => exact fun _ _ _ _ hn h => ⟨_, boundsChecked_outside hn h, rfl⟩
  case ldB => exact fun _ _ h => ⟨_, boundsChecked_outside (by decide) h, rfl⟩
  case ranges =>
    intro x s h
    have hn : 1 ≤ x.val + 1 := Nat.le_add_left 1 x.val
    exact ⟨⟨_, boundsChecked_outside hn h, rfl⟩, ⟨_, boundsChecked_outside hn h, rfl⟩⟩
  case load =>
    intro s bytes rest hp hf h
    obtain ⟨hstep, hreply⟩ := step_and_reply_of_loadProgram_tooLong hp hf h
    exact ⟨_, hstep, (State.condition_number_eq_zero _).mpr hf, hreply ▸ rfl⟩

/-! ## Inspection (R201) -/

/-- Settles O28: get_state runs nothing, and its report is the snapshot of the state it finds. -/
theorem getStateReadsAndChangesNothing : Obligations.GetStateReadsAndChangesNothing := fun _ _ hp =>
  ⟨step_of_event hp nofun, reply_of_event hp nofun⟩

end Sys2Proof.Machine

/-! # Proofs, what the other families leave, O4: the decoder accepts exactly the opcode map (R76, R77) -/

namespace Sys2Proof

/-! ## A word that matches a row has the row's fixed fields (R71, R76) -/

section
variable {w m : Word}

theorem fieldFamily_of_row {mask : Word} (h : w &&& mask = m) (hmask : fieldFamily mask = 0xF) :
    fieldFamily w = fieldFamily m := by
  have hand : fieldFamily (w &&& mask) = fieldFamily w &&& fieldFamily mask := BitVec.extractLsb'_and
  rw [← h, hand, hmask]
  exact BitVec.and_allOnes.symm

theorem fieldN_of_row (h : w &&& 0xF00F = m) : fieldN w = fieldN m := by
  have hand : fieldN (w &&& 0xF00F) = fieldN w &&& 0xF := BitVec.extractLsb'_and
  rw [← h, hand]
  exact BitVec.and_allOnes.symm

theorem fieldNN_of_row (h : w &&& 0xF0FF = m) : fieldNN w = fieldNN m := by
  have hand : fieldNN (w &&& 0xF0FF) = fieldNN w &&& 0xFF := BitVec.extractLsb'_and
  rw [← h, hand]
  exact BitVec.and_allOnes.symm

/-! ## So it is the row's pattern filled in with its own operand fields (R72) -/

variable {f : BitVec 4}

theorem eq_formatNNN_of_row (h : w &&& 0xF000 = m) (hf : fieldFamily m = f) : w = formatNNN f (fieldNNN w) :=
  (formatNNN_of_fieldFamily ((fieldFamily_of_row h rfl).trans hf)).symm

theorem eq_formatXNN_of_row (h : w &&& 0xF000 = m) (hf : fieldFamily m = f) :
    w = formatXNN f (fieldX w) (fieldNN w) :=
  (formatXNN_of_fieldFamily ((fieldFamily_of_row h rfl).trans hf)).symm

theorem eq_formatXYN_of_row {n : BitVec 4} (h : w &&& 0xF00F = m) (hf : fieldFamily m = f) (hn : fieldN m = n) :
    w = formatXYN f (fieldX w) (fieldY w) n :=
  (fieldN_of_row h).trans hn ▸ (formatXYN_of_fieldFamily ((fieldFamily_of_row h rfl).trans hf)).symm

theorem eq_formatX_of_row {low : Byte} (h : w &&& 0xF0FF = m) (hf : fieldFamily m = f) (hlow : fieldNN m = low) :
    w = formatX f (fieldX w) low :=
  (fieldNN_of_row h).trans hlow ▸ (formatXNN_of_fieldFamily ((fieldFamily_of_row h rfl).trans hf)).symm

theorem eq_of_exact_row (h : w &&& 0xFFFF = m) : w = m := BitVec.and_allOnes.symm.trans h

end

/-! ## The instruction of each row -/

/-- The word of a well-formed instruction decodes to one of its mnemonic. -/
theorem decodes_of_eq_encode {w : Word} {i : Instr} (h : w = encode i) (hi : i.wellFormed = true) :
    ∃ j, decodeWord w = .ok j ∧ j.mnemonic = i.mnemonic := ⟨i, h ▸ decodeWord_encode hi, rfl⟩

/-- DRW's count is the one operand that is a number and not a field. -/
theorem eq_encode_drw_of_row {w : Word} (h : w &&& 0xF000 = 0xD000) :
    w = encode (.drw (fieldX w) (fieldY w) (fieldN w).toNat) := by
  have hf : fieldFamily w = 0xD := fieldFamily_of_row h rfl
  rw [encode, BitVec.ofNat_toNat, BitVec.setWidth_eq, formatXYN_of_fieldFamily hf]

/-- A word that matches a row is the encoding of that row's instruction, with the word's own fields as operands. -/
theorem decodes_of_row {w : Word} : ∀ row ∈ opcodeMap, w &&& row.mask = row.matchBits →
    ∃ i, decodeWord w = .ok i ∧ i.mnemonic = row.mnemonic := by
  simp only [opcodeMap, opcodeMapA, opcodeMapB, opcodeMapC, List.cons_append, List.nil_append, List.forall_mem_cons]
  exact ⟨
    fun h => decodes_of_eq_encode (i := .cls) (eq_of_exact_row h) rfl,
    fun h => decodes_of_eq_encode (i := .ret) (eq_of_exact_row h) rfl,
    fun h => decodes_of_eq_encode (i := .jp _) (eq_formatNNN_of_row h rfl) rfl,
    fun h => decodes_of_eq_encode (i := .call _) (eq_formatNNN_of_row h rfl) rfl,
    fun h => decodes_of_eq_encode (i := .seImm _ _) (eq_formatXNN_of_row h rfl) rfl,
    fun h => decodes_of_eq_encode (i := .sneImm _ _) (eq_formatXNN_of_row h rfl) rfl,
    fun h => decodes_of_eq_encode (i := .seReg _ _) (eq_formatXYN_of_row h rfl rfl) rfl,
    fun h => decodes_of_eq_encode (i := .ldImm _ _) (eq_formatXNN_of_row h rfl) rfl,
    fun h => decodes_of_eq_encode (i := .addImm _ _) (eq_formatXNN_of_row h rfl) rfl,
    fun h => decodes_of_eq_encode (i := .ldReg _ _) (eq_formatXYN_of_row h rfl rfl) rfl,
    fun h => decodes_of_eq_encode (i := .orReg _ _) (eq_formatXYN_of_row h rfl rfl) rfl,
    fun h => decodes_of_eq_encode (i := .andReg _ _) (eq_formatXYN_of_row h rfl rfl) rfl,
    fun h => decodes_of_eq_encode (i := .xorReg _ _) (eq_formatXYN_of_row h rfl rfl) rfl,
    fun h => decodes_of_eq_encode (i := .addReg _ _) (eq_formatXYN_of_row h rfl rfl) rfl,
    fun h => decodes_of_eq_encode (i := .sub _ _) (eq_formatXYN_of_row h rfl rfl) rfl,
    fun h => decodes_of_eq_encode (i := .shr _ _) (eq_formatXYN_of_row h rfl rfl) rfl,
    fun h => decodes_of_eq_encode (i := .subn _ _) (eq_formatXYN_of_row h rfl rfl) rfl,
    fun h => decodes_of_eq_encode (i := .shl _ _) (eq_formatXYN_of_row h rfl rfl) rfl,
    fun h => decodes_of_eq_encode (i := .sneReg _ _) (eq_formatXYN_of_row h rfl rfl) rfl,
    fun h => decodes_of_eq_encode (i := .ldI _) (eq_formatNNN_of_row h rfl) rfl,
    fun h => decodes_of_eq_encode (i := .jpV0 _) (eq_formatNNN_of_row h rfl) rfl,
    fun h => decodes_of_eq_encode (i := .rnd _ _) (eq_formatXNN_of_row h rfl) rfl,
    fun h => decodes_of_eq_encode (eq_encode_drw_of_row h) (decide_eq_true (fieldN w).isLt),
    fun h => decodes_of_eq_encode (i := .skp _) (eq_formatX_of_row h rfl rfl) rfl,
    fun h => decodes_of_eq_encode (i := .sknp _) (eq_formatX_of_row h rfl rfl) rfl,
    fun h => decodes_of_eq_encode (i := .ldVxDT _) (eq_formatX_of_row h rfl rfl) rfl,
    fun h => decodes_of_eq_encode (i := .ldVxK _) (eq_formatX_of_row h rfl rfl) rfl,
    fun h => decodes_of_eq_encode (i := .ldDTVx _) (eq_formatX_of_row h rfl rfl) rfl,
    fun h => decodes_of_eq_encode (i := .ldSTVx _) (eq_formatX_of_row h rfl rfl) rfl,
    fun h => decodes_of_eq_encode (i := .addI _) (eq_formatX_of_row h rfl rfl) rfl,
    fun h => decodes_of_eq_encode (i := .ldF _) (eq_formatX_of_row h rfl rfl) rfl,
    fun h => decodes_of_eq_encode (i := .ldB _) (eq_formatX_of_row h rfl rfl) rfl,
    fun h => decodes_of_eq_encode (i := .dumpRegs _) (eq_formatX_of_row h rfl rfl) rfl,
    fun h => decodes_of_eq_encode (i := .loadRegs _) (eq_formatX_of_row h rfl rfl) rfl,
    nofun⟩

/-! ## The name under which a word is turned away (R77, D14) -/

/-- A test that failed to select its instruction leaves the rest of the dispatch. -/
theorem eq_error_of_ite {p : Prop} [Decidable p] {i : Instr} {e : Except DecodeReject Instr} {why : DecodeReject}
    (h : (if p then .ok i else e) = .error why) : e = .error why := by
  split at h
  · cases h
  · exact h

theorem decodeFamily0_error {w : Word} {why : DecodeReject} (h0 : w ≠ 0x0000) (h : decodeFamily0 w = .error why) :
    why = .unrecognised w := by
  have h := eq_error_of_ite (eq_error_of_ite h)
  rw [if_neg h0] at h
  cases h
  rfl

theorem decodeFamily8_error {w : Word} {x y : RegIdx} {n : BitVec 4} {why : DecodeReject}
    (h : decodeFamily8 w x y n = .error why) : why = .unrecognised w := by
  unfold decodeFamily8 at h
  repeat replace h := eq_error_of_ite h
  cases h
  rfl

theorem decodeFamilyE_error {w : Word} {x : RegIdx} {nn : Byte} {why : DecodeReject}
    (h : decodeFamilyE w x nn = .error why) : why = .unrecognised w := by
  unfold decodeFamilyE at h
  repeat replace h := eq_error_of_ite h
  cases h
  rfl

theorem decodeFamilyF_error {w : Word} {x : RegIdx} {nn : Byte} {why : DecodeReject}
    (h : decodeFamilyF w x nn = .error why) : why = .unrecognised w := by
  unfold decodeFamilyF at h
  repeat replace h := eq_error_of_ite h
  cases h
  rfl

/-- Only the five families that dispatch further turn a word away. -/
theorem decodeWord_error {w : Word} {why : DecodeReject} (h0 : w ≠ 0x0000) (h : decodeWord w = .error why) :
    why = .unrecognised w := by
  rcases nibble_cases (fieldFamily w) with
    hf | hf | hf | hf | hf | hf | hf | hf | hf | hf | hf | hf | hf | hf | hf | hf
  · exact decodeFamily0_error h0 (decodeWord_family0 hf ▸ h)
  · cases (decodeWord_family1 hf).symm.trans h
  · cases (decodeWord_family2 hf).symm.trans h
  · cases (decodeWord_family3 hf).symm.trans h
  · cases (decodeWord_family4 hf).symm.trans h
  · cases eq_error_of_ite ((decodeWord_family5 hf).symm.trans h)
    rfl
  · cases (decodeWord_family6 hf).symm.trans h
  · cases (decodeWord_family7 hf).symm.trans h
  · exact decodeFamily8_error (decodeWord_family8 hf ▸ h)
  · cases eq_error_of_ite ((decodeWord_family9 hf).symm.trans h)
    rfl
  · cases (decodeWord_familyA hf).symm.trans h
  · cases (decodeWord_familyB hf).symm.trans h
  · cases (decodeWord_familyC hf).symm.trans h
  · cases (decodeWord_familyD hf).symm.trans h
  · exact decodeFamilyE_error (decodeWord_familyE hf ▸ h)
  · exact decodeFamilyF_error (decodeWord_familyF hf ▸ h)

/-- Settles O4: a matching word is an encoding of the row's instruction; a word no row matches is turned away by name. -/
theorem decoderAcceptsExactlyTheOpcodeMap : Obligations.DecoderAcceptsExactlyTheOpcodeMap := by
  refine fun w h0 => ⟨decodes_of_row, fun hrows => ?_⟩
  obtain ⟨why, hwhy⟩ := decodeWord_error_of_no_row hrows
  rw [hwhy, decodeWord_error h0 hwhy]

end Sys2Proof

/-! # Proofs, what the other families leave, the step event and its faults, O6, O8, O10, O11, O15 -/

namespace Sys2Proof.Machine

/-! ## A step event that begins without a fault latches a legal record or completes (R95, R181, R183) -/

/-- A completed instruction has left the latch and the port alone, so the step takes its keys. -/
theorem latchKeys_exec_cases {i : Instr} {s u : State} (hf : s.fault = none) (h : exec i s = .next u) :
    LatchesLegal s (latchKeys u) ∨ (latchKeys u).fault = none ∧ (latchKeys u).prevKeys = s.host.keys := by
  rw [latchKeys_exec h]
  obtain ⟨r, hwf, hpc0, rfl⟩ | hsame := exec_frame h
  · exact .inl ⟨r, hwf, hpc0, rfl⟩
  · have hfault : u.fault = none := (hsame .fault rfl).trans hf
    rw [if_pos hfault]
    exact .inr ⟨hfault, rfl⟩

theorem stepCore_next_cases {s : State} (hf : s.fault = none) : ∃ t, stepCore s = .next t ∧
    (LatchesLegal s t ∨ t.fault = none ∧ t.prevKeys = s.host.keys) := by
  obtain ⟨hf', -⟩ | ⟨-, hpc, he⟩ | ⟨-, -, -, he⟩ | ⟨-, -, -, -, he⟩ | ⟨i, -, -, -, -, he⟩ := stepCore_cases s
  · exact absurd hf hf'
  · refine ⟨_, he, .inl ⟨_, ?_, rfl, rfl⟩⟩
    exact Bool.and_eq_true_iff.mpr ⟨decide_eq_true rfl, decide_eq_true hpc⟩
  · exact ⟨_, he, .inr ⟨hf, rfl⟩⟩
  · exact ⟨_, he, .inl ⟨_, rfl, rfl, rfl⟩⟩
  · obtain ⟨u, hu⟩ := exec_next i s
    rw [hu] at he
    exact ⟨_, he, latchKeys_exec_cases hf hu⟩

/-- Settles O10: a step that latches a record changes nothing else, one that completes ends with its keys latched. -/
theorem stepLatchesKeysUnlessItFaults : Obligations.StepLatchesKeysUnlessItFaults := by
  intro s s' t hs hf ht
  obtain ⟨u, hcore, hcases⟩ := stepCore_next_cases (hs.fault_eq.trans hf)
  obtain rfl : u = t := Host.Outcome.next.inj (hcore.symm.trans ((step_of_starts hs).symm.trans ht))
  obtain ⟨r, -, -, rfl⟩ | ⟨hnone, hkeys⟩ := hcases
  · rw [hs.core_eq]
    rfl
  · rw [if_pos hnone, hkeys]

/-! ## Every event (R6) -/

theorem runEvent_next (e : HostEvent) (s : State) : ∃ t, runEvent e s = .next t := by
  cases e with
  | step keys =>
    cases hf : s.fault with
    | some r => exact ⟨s, stepCore_faulted hf⟩
    | none =>
      obtain ⟨t, ht, -⟩ := stepCore_next_cases hf
      exact ⟨t, ht⟩
  | reset | loadProgram | hostWrite | tick | getState => exact ⟨_, rfl⟩

/-- Settles O11: whichever event comes next, it answers a next state. -/
theorem everyStepAnswersANextState : Obligations.EveryStepAnswersANextState := fun s =>
  runEvent_next (nextEvent s) (takeEvent s)

theorem loadProgram_fault (bytes : List Byte) (s : State) : (loadProgram bytes s).fault = s.fault := by
  unfold loadProgram
  split
  · rfl
  · split <;> rfl

theorem hostWrite_fault (addr : Addr12) (byte : Byte) (s : State) : (hostWrite addr byte s).fault = s.fault := by
  unfold hostWrite
  split <;> rfl

/-- Only a step event raises: the others end without a record, or as they found it. -/
theorem runEvent_fault_cases {e : HostEvent} {s t : State} (hf : s.fault = none) (h : runEvent e s = .next t) :
    LatchesLegal s t ∨ t.fault = none := by
  cases e with
  | step keys =>
    obtain ⟨u, hu, hcases⟩ := stepCore_next_cases hf
    cases hu.symm.trans h
    exact hcases.imp_right And.left
  | reset => cases h; exact .inr rfl
  | loadProgram bytes => cases h; exact .inr ((loadProgram_fault bytes s).trans hf)
  | hostWrite addr byte => cases h; exact .inr ((hostWrite_fault addr byte s).trans hf)
  | tick => cases h; exact .inr ((onlyChanged_tick s .fault (by decide)).trans hf)
  | getState => cases h; exact .inr hf

/-- Settles O15: the record was latched in the state the event was taken from, with its `pc`. -/
theorem faultsArePrecise : Obligations.FaultsArePrecise := by
  intro s t r hf h hr
  obtain ⟨r', -, hpc0, rfl⟩ | hnone := runEvent_fault_cases (s := takeEvent s) hf h
  · cases hr
    exact ⟨rfl, hpc0⟩
  · cases hnone.symm.trans hr

/-! ## The fetch (R91, R92) -/

/-- Settles O6: the state the step starts from is halted. -/
theorem zeroWordHaltsWithoutAdvance : Obligations.ZeroWordHaltsWithoutAdvance := by
  intro s s' hs hf hpc hz
  have hs' : s'.Halted := ⟨hs.fault_eq.trans hf, hs.pc_eq ▸ hpc, hs.opcodeAtPc_eq.trans hz⟩
  exact ⟨(step_of_starts hs).trans (stepCore_halted hs'), (reply_of_starts hs).trans (stepReport_of_halted hs')⟩

/-- Settles O8: the fetch finds nothing, so the step latches the record and reports it. -/
theorem fetchBeyondMemoryRaises : Obligations.FetchBeyondMemoryRaises := by
  intro s s' hs hf hpc
  rw [← hs.pc_eq] at hpc ⊢
  exact step_and_reply_of_latch hs (stepCore_fetch_outside (hs.fault_eq.trans hf) hpc)

end Sys2Proof.Machine

/-! # Proofs, what the other families leave, reset and the host's events, O16, O21 to O27 -/

namespace Sys2Proof.Machine

/-! ## Reset (R37, R210, R212) -/

/-- Settles O16, which the invariant's own induction begins with. -/
theorem resetSatisfiesInv : Obligations.ResetSatisfiesInv := reset_inv

/-- The reset framebuffer is dark, and a place outside the grid reads dark. -/
theorem reset_cell (row column : Nat) : State.reset.cell row column = false := by
  unfold State.cell cellAt
  split
  · exact Vector.getElem_replicate _
  · rfl

/-- Settles O21, element by element. -/
theorem resetStateHoldsTheResetValues : Obligations.ResetStateHoldsTheResetValues :=
  ⟨Memory.read_nil, rfl, rfl, fun k => Vector.getElem_replicate k.isLt, rfl, rfl, rfl,
    fun r => Vector.getElem_replicate r.isLt, reset_cell, rfl, rfl⟩

/-- Settles O22: the reset state, with the port as it is once the event has been taken off it. -/
theorem resetEventRestoresEveryElement : Obligations.ResetEventRestoresEveryElement := fun _ _ hp =>
  step_of_event hp nofun

/-- Settles O23: memory is zero after reset, so the first step is a step at the zero word. -/
theorem firstStepAfterBareResetIsHalted : Obligations.FirstStepAfterBareResetIsHalted := by
  intro keys
  have hs : StepStarts (State.reset.setHost ⟨0x0000, [.step keys]⟩) (State.reset.setHost ⟨keys, []⟩) :=
    .inr ⟨keys, [], rfl, rfl⟩
  have hpc : State.reset.pc.toNat ≤ 4094 := by decide
  have hzero : State.reset.opcodeAtPc = 0x0000 := by decide
  exact (zeroWordHaltsWithoutAdvance _ _ hs rfl hpc hzero).symm

/-! ## Tick (R196) -/

theorem countDown_toNat (b : Byte) : (countDown b).toNat = b.toNat - 1 := by
  unfold countDown
  split
  next h => rw [h]; rfl
  next h => bv_omega

theorem tick_running {s : State} (hf : s.fault = none) :
    tick s = (s.setDT (countDown s.DT)).setST (countDown s.ST) := by
  simp only [tick, hf]

/-- Settles O24: two updates of the timers, and the port. -/
theorem tickCountsBothTimersDown : Obligations.TickCountsBothTimersDown := by
  intro s rest hp hf
  have hrun := tick_running (s := s.setHost ⟨s.host.keys, rest⟩) hf
  exact ⟨_, (step_of_event hp nofun).trans (congrArg Host.Outcome.next hrun), countDown_toNat s.DT, countDown_toNat s.ST,
    rfl, (onlyChanged_setHost.trans (onlyChanged_setDT.trans onlyChanged_setST)).mono (by simp)⟩

/-! ## load_program and host_write (R213, R214) -/

/-- At most 3584 bytes fit from 512 on (D17). -/
theorem loadProgram_fits {s : State} {bytes : List Byte} (hf : s.fault = none) (h : bytes.length ≤ 3584) :
    loadProgram bytes s = (s.setMem (s.mem.writeBytes 512 bytes)).setPc 512 ∧ loadReport bytes s = .loaded := by
  have hfits : programFits bytes = true := by
    simp only [programFits, Config.programBase, Config.memSize, decide_eq_true_eq]
    omega
  constructor
  · simp only [loadProgram, hf, if_pos hfits]
    rfl
  · simp only [loadReport, hf, if_pos hfits]

/-- Settles O25: the program is a run of bytes written at 512. -/
theorem loadProgramCopiesTheBytes : Obligations.LoadProgramCopiesTheBytes := by
  intro s bytes rest hp hf h
  obtain ⟨hload, hreport⟩ := loadProgram_fits (s := s.setHost ⟨s.host.keys, rest⟩) hf h
  refine ⟨_, (step_of_event hp nofun).trans (congrArg Host.Outcome.next hload),
    (reply_of_event hp nofun).trans hreport, rfl, rfl, fun k hk => Memory.read_writeBytes_inside s.mem 512 bytes hk, ?frame⟩
  case frame =>
    exact ((onlyChanged_setHost.trans onlyChanged_writeBytes).trans onlyChanged_setPc).mono (by simp)

/-- Settles O26: a program that does not fit is not loaded. -/
theorem loadProgramRefusesATooLongProgram : Obligations.LoadProgramRefusesATooLongProgram := fun _ _ _ hp hf h =>
  (step_and_reply_of_loadProgram_tooLong hp hf h).symm

theorem hostWrite_running {s : State} (addr : Addr12) (byte : Byte) (hf : s.fault = none) :
    hostWrite addr byte s = s.setMem (s.mem.write addr.toNat byte) := by
  simp only [hostWrite, hf]

theorem onlyChanged_write {s : State} {a : Nat} {b : Byte} : OnlyChanged [.mem a] s (s.setMem (s.mem.write a b)) :=
  onlyChanged_writeBytes (bs := [b])

/-- Settles O27: one write, and the port. -/
theorem hostWriteSetsOneByte : Obligations.HostWriteSetsOneByte := by
  intro s addr byte rest hp hf
  have hrun := hostWrite_running (s := s.setHost ⟨s.host.keys, rest⟩) addr byte hf
  exact ⟨_, (step_of_event hp nofun).trans (congrArg Host.Outcome.next hrun), Memory.read_write_same _ _ _, rfl,
    (onlyChanged_setHost.trans onlyChanged_write).mono (by simp)⟩

end Sys2Proof.Machine

/-! # Proofs, what the other families leave, the instructions, O31, O36, O38, O39, O43, O46, O49 to O51, O53 to O58 -/

namespace Sys2Proof.Machine

/-! ## Accesses outside memory (R53, R188) -/

/-- Settles O31: DRW checks its bounds before it draws. -/
theorem drwOutsideMemoryRaises : Obligations.DrwOutsideMemoryRaises := fun _ _ _ _ => boundsChecked_outside

/-- Settles O58: each of the three checks its bounds before it stores or loads. -/
theorem indexedAccessOutsideMemoryRaises : Obligations.IndexedAccessOutsideMemoryRaises := by
  intro x s
  have hn : 1 ≤ x.val + 1 := Nat.le_add_left 1 x.val
  exact ⟨boundsChecked_outside (by decide), fun h => ⟨boundsChecked_outside hn h, boundsChecked_outside hn h⟩⟩

/-! ## CALL, JP V0 and the skips on a key (R112, R113, R118, R119, R121) -/

theorem execCall_room {nnn : Addr12} {s : State} (h : s.sp.val < 16) : execCall nnn s =
    .next ((s.setCalls (s.stack.set s.sp.val (s.pc + 2) h) ⟨s.sp.val + 1, Nat.succ_lt_succ h⟩).setPc
      (wordOfAddr nnn)) := by
  simp only [execCall, State.push_room _ h, State.advance_pc]

/-- Settles O36: of the stack, the push sets the entry at the depth it found. -/
theorem callPushesTheReturnAddress : Obligations.CallPushesTheReturnAddress := by
  rintro nnn s ⟨_, hd⟩ rfl
  refine ⟨_, execCall_room hd, wordOfAddr_toNat nnn, rfl, Vector.getElem_set_self _, fun k hk => ?others, ?frame⟩
  case others => exact Vector.getElem_set_ne hd k.isLt fun h => hk (Fin.ext h.symm)
  case frame => exact (onlyChanged_setCalls.trans onlyChanged_setPc).mono (by simp)

/-- Settles O38: RET pops the entry that CALL has pushed. -/
theorem callThenRetComesBack : Obligations.CallThenRetComesBack := by
  intro nnn s h
  obtain ⟨t, ht, -, hpushed, hentry, -, -⟩ := callPushesTheReturnAddress nnn s ⟨s.sp.val, h⟩ rfl
  obtain ⟨u, hu, hpc, hpopped, -⟩ := retPopsTheNewestEntry t ⟨s.sp.val, h⟩ hpushed
  exact ⟨t, u, ht, hu, hpc.trans hentry, Fin.ext hpopped⟩

/-- Settles O39: a 12-bit address and a byte have a sum of 16 bits. -/
theorem jpV0AddsV0 : Obligations.JpV0AddsV0 := by
  intro nnn s
  refine ⟨_, rfl, ?_, onlyChanged_setPc⟩
  rw [State.setPc_pc, BitVec.toNat_add, wordOfAddr_toNat, State.regWord_toNat]
  omega

theorem keyHeld_eq_decide (keys : Word) (k : Byte) :
    keyHeld keys k = decide (k.toNat ≤ 15 ∧ keys.getLsbD k.toNat = true) := by
  rw [Bool.eq_iff_iff, decide_eq_true_eq, keyHeld_iff]

/-- Settles O43: the two conditions are the key held and its negation. -/
theorem skipsOnAKey : Obligations.SkipsOnAKey := by
  intro x s
  have hheld := keyHeld_eq_decide s.host.keys (s.reg x)
  obtain ⟨t, ht, htpc, htframe⟩ := exec_skip_when (i := .skp x) (congrArg some hheld)
  obtain ⟨u, hu, hupc, huframe⟩ := exec_skip_unless (i := .sknp x) (s := s)
    (congrArg some ((congrArg not hheld).trans decide_not.symm))
  exact ⟨⟨t, ht, htframe, htpc⟩, ⟨u, hu, huframe, hupc⟩⟩

/-! ## One word into `I` (R133, R152, R170) -/

theorem exec_setI {i : Instr} {s : State} {w : Word} {n : Nat} (h : exec i s = .next (s.advance.setI w)) (hw : w.toNat = n) :
    ∃ t, exec i s = .next t ∧ t.pc = s.pc + 2 ∧ t.I.toNat = n ∧ OnlyChanged [.pc, .I] s t :=
  ⟨_, h, rfl, hw, onlyChanged_advance.trans onlyChanged_setI⟩

/-- Settles O46: word addition is addition modulo 65536. -/
theorem addIndexWrapsAt16Bits : Obligations.AddIndexWrapsAt16Bits := fun x s =>
  exec_setI rfl (by rw [BitVec.toNat_add, s.regWord_toNat])

/-- Settles O54, by the glyph address. -/
theorem ldFComputesTheGlyphAddress : Obligations.LdFComputesTheGlyphAddress := fun _ _ =>
  exec_setI rfl (glyphAddress_toNat _)

/-- Settles O50: two writes of a register and one of `I`. -/
theorem loadsSetTheirDestination : Obligations.LoadsSetTheirDestination :=
  ⟨fun _ _ _ => exec_setReg rfl, fun _ _ _ => exec_setReg rfl, fun nnn _ => exec_setI rfl (wordOfAddr_toNat nnn)⟩

/-! ## Shifts (R140, R142) -/

theorem shiftRight_one_toNat (a : Byte) : (a >>> 1).toNat = a.toNat / 2 := BitVec.toNat_ushiftRight a 1

theorem shiftLeft_one_toNat (a : Byte) : (a <<< 1).toNat = a.toNat * 2 % 256 := by
  rw [BitVec.toNat_shiftLeft, Nat.shiftLeft_eq]

/-- A result and a flag whose value is known as a number. -/
theorem exec_setResultFlag_toNat {i : Instr} {x : RegIdx} {s : State} {b : Byte} {f : Bool} {n m : Nat}
    (h : exec i s = .next (s.advance.setResultFlag x b f)) (hb : b.toNat = n) (hf : f.toNat = m) :
    ∃ t, exec i s = .next t ∧ t.pc = s.pc + 2 ∧ (x ≠ 15 → (t.reg x).toNat = n) ∧
      (t.reg 15).toNat = m ∧ OnlyChanged [.pc, .V x, .V 15] s t := by
  refine ⟨_, h, rfl, fun hx => ?result, ?flag, onlyChanged_advance.trans onlyChanged_setResultFlag⟩
  case result => rw [State.setResultFlag_reg_result f hx, hb]
  case flag => rw [State.setResultFlag_vf, flagByte_toNat, hf]

/-- Settles O49: half or twice the byte, and the bit that falls out. -/
theorem shiftsMoveOneBitIntoTheFlag : Obligations.ShiftsMoveOneBitIntoTheFlag := fun _ _ _ =>
  ⟨exec_setResultFlag_toNat rfl (shiftRight_one_toNat _) (shiftedOutRight_toNat _),
    exec_setResultFlag_toNat rfl (shiftLeft_one_toNat _) (shiftedOutLeft_toNat _)⟩

/-! ## Random bytes and keys (R160, R164) -/

/-- Settles O51: a mask bit of 0 clears the bit, whatever byte was drawn. -/
theorem rndMasksTheDrawnByte : Obligations.RndMasksTheDrawnByte := by
  intro x nn s
  have hreg : ((s.advance.setRng (rngNext s.rng).2).setReg x ((rngNext s.rng).1 &&& nn)).reg x =
      (rngNext s.rng).1 &&& nn := State.setReg_reg_same _ x _
  refine ⟨_, rfl, rfl, hreg, rfl, fun k hk => ?masked, ?frame⟩
  case masked => rw [hreg, BitVec.getLsbD_and, hk, Bool.and_false]
  case frame => exact (onlyChanged_advance.trans (onlyChanged_setRng.trans onlyChanged_setReg)).mono (by simp)

theorem State.changedKeys_getLsbD (s : State) (k : Nat) :
    s.changedKeys.getLsbD k = (s.host.keys.getLsbD k != s.prevKeys.getLsbD k) := BitVec.getLsbD_xor

theorem State.changedKeys_eq_zero (s : State) : s.changedKeys = 0x0000 ↔ s.host.keys = s.prevKeys :=
  BitVec.xor_eq_zero_iff

theorem execLdVxK_unchanged {x : RegIdx} {s : State} (h : s.host.keys = s.prevKeys) : execLdVxK x s = .next s := by
  unfold execLdVxK
  rw [if_pos (s.changedKeys_eq_zero.mpr h), State.advance_pc, BitVec.add_sub_cancel]
  rfl

theorem execLdVxK_changed {x : RegIdx} {s : State} (h : s.host.keys ≠ s.prevKeys) :
    execLdVxK x s = .next (s.advance.setReg x (BitVec.ofNat 8 (lowestSetBit s.changedKeys))) :=
  if_neg fun h0 => h (s.changedKeys_eq_zero.mp h0)

/-- Settles O53: the lowest set bit of the changed keys is the lowest index at which the two words differ. -/
theorem keyWaitRepeatsUntilAKeyChanges : Obligations.KeyWaitRepeatsUntilAKeyChanges := by
  refine fun x s => ⟨execLdVxK_unchanged, fun h => ?_⟩
  obtain ⟨hlt, hset, hbelow⟩ := lowestSetBit_spec fun h0 => h (s.changedKeys_eq_zero.mp h0)
  obtain ⟨t, ht, hpc, hreg, hframe⟩ := exec_setReg (i := .ldVxK x) (execLdVxK_changed h)
  refine ⟨t, _, ht, hpc, hlt, ?index, ?differs, fun j hj => ?same, hframe⟩
  case index => rw [hreg, BitVec.toNat_ofNat]; omega
  case differs => rwa [s.changedKeys_getLsbD, bne_iff_ne] at hset
  case same =>
    have hj := hbelow j hj
    rwa [s.changedKeys_getLsbD, bne_eq_false_iff_eq] at hj

/-! ## Bytes and registers at `I`, inside memory (R171 to R173) -/

/-- The frame of an instruction that stores a run of bytes. -/
theorem onlyChanged_advance_writeBytes {s : State} {a n : Nat} {bs : List Byte} (hlen : bs.length = n) :
    OnlyChanged (.pc :: bytesFrom a n) s (s.advance.setMem (s.mem.writeBytes a bs)) :=
  hlen ▸ onlyChanged_advance.trans (onlyChanged_writeBytes (s := s.advance))

/-- A digit is below 256, so its byte holds it. -/
theorem read_digit_toNat {x : RegIdx} {s : State} {j d : Nat} (hj : j < 3)
    (hdigit : (bcdDigits (s.reg x))[j] = BitVec.ofNat 8 d) (hlt : d < 256) :
    ((s.mem.writeBytes s.I.toNat (bcdDigits (s.reg x))).read (s.I.toNat + j)).toNat = d := by
  rw [Memory.read_writeBytes_inside _ _ _ hj, hdigit, BitVec.toNat_ofNat]
  exact Nat.mod_eq_of_lt hlt

/-- Settles O55, digit by digit. -/
theorem ldBStoresThreeDigits : Obligations.LdBStoresThreeDigits := by
  intro x s h
  have hlt := (s.reg x).isLt
  exact ⟨_, execLdB_inside h, rfl, read_digit_toNat (j := 0) (by decide) rfl (by omega),
    read_digit_toNat (by decide) rfl (by omega), read_digit_toNat (by decide) rfl (by omega),
    onlyChanged_advance_writeBytes rfl⟩

/-- Settles O56: byte `k` of the stored run is `V[k]`. -/
theorem dumpStoresTheRegisterRange : Obligations.DumpStoresTheRegisterRange := by
  intro x s h
  have hlen : (s.firstRegs (x.val + 1)).length = x.val + 1 := s.length_firstRegs x.isLt
  refine ⟨_, execDumpRegs_inside h, rfl, fun k hk => ?stored, onlyChanged_advance_writeBytes hlen⟩
  have hk : k.val < (s.firstRegs (x.val + 1)).length := by omega
  exact (Memory.read_writeBytes_inside s.mem s.I.toNat _ hk).trans (s.getElem_firstRegs hk k.isLt)

theorem execLoadRegs_inside {x : RegIdx} {s : State} (h : s.I.toNat + (x.val + 1) ≤ 4096) :
    execLoadRegs x s = .next (s.advance.setRegs (loadRange s.mem s.I.toNat s.V (x.val + 1))) := boundsChecked_inside h

/-- Settles O57: register `k` of the loaded range is the byte at `I + k`. -/
theorem loadFillsTheRegisterRange : Obligations.LoadFillsTheRegisterRange := by
  intro x s h
  refine ⟨_, execLoadRegs_inside h, rfl, fun k hk => ?loaded, ?frame⟩
  case loaded => exact (getElem_loadRange _ _ _ _ k.val k.isLt).trans (if_pos (Nat.lt_succ_of_le hk))
  case frame => exact onlyChanged_advance.trans (onlyChanged_loadRange (s := s.advance))

end Sys2Proof.Machine
